-- ==== Sys2Proof/Word.lean ====
section
/-! DEFINITION. The word types of rule R10 and the one narrowing every computation ends in. -/

namespace Sys2Proof

/-- An Int32 of rule R10: 32 bits in two's complement. The accumulator, the pc, an argument, a data
word and a data index are words; `BitVec.toInt` is the signed value. -/
abbrev Word := BitVec 32

/-- One byte of the binary image; an opcode is a byte (R10). -/
abbrev Byte := BitVec 8

/-- `wrap32` of rule R10: the one Int32 congruent to `n` modulo 2^32. -/
def wrap32 (n : Int) : Word := BitVec.ofInt 32 n

end Sys2Proof
end

