-- ==== Sys2Proof/Syntax.lean ====
section
/-! DEFINITION. The instruction set as syntax: the 14 mnemonics, the 4 modes and the Instruction record
of rule R26 as one inductive. A code cell of the machine holds an `Instr`. -/

namespace Sys2Proof

/-- The 14 mnemonics (R2, R26), in the row order of the source's table. -/
inductive Mnemonic where
  | nop | not | halt | lod | sto | add | sub | mul | div | and | jump | jmpz | cmpl | cmpz
deriving DecidableEq, Repr

/-- The four addressing modes (R61). -/
inductive Mode where
  | direct | immediate | indirect | indirect2
deriving DecidableEq, Repr

/-- An Instruction (R26): the mnemonic is the constructor; the mode and the stored parity bit are free
fields of every instruction; the argument is present exactly for the argument-taking mnemonics (R64).
A value whose parity is wrong or whose mode is illegal is still an instruction: it faults when it is
executed (R102, R104). The 32 rows of spec/opcode_table.json are the legal values of `mode`. -/
inductive Instr where
  | nop (mode : Mode) (parity : Bool)
  | not (mode : Mode) (parity : Bool)
  | halt (mode : Mode) (parity : Bool)
  | lod (mode : Mode) (parity : Bool) (arg : Word)
  | sto (mode : Mode) (parity : Bool) (arg : Word)
  | add (mode : Mode) (parity : Bool) (arg : Word)
  | sub (mode : Mode) (parity : Bool) (arg : Word)
  | mul (mode : Mode) (parity : Bool) (arg : Word)
  | div (mode : Mode) (parity : Bool) (arg : Word)
  | and (mode : Mode) (parity : Bool) (arg : Word)
  | jump (mode : Mode) (parity : Bool) (arg : Word)
  | jmpz (mode : Mode) (parity : Bool) (arg : Word)
  | cmpl (mode : Mode) (parity : Bool) (arg : Word)
  | cmpz (mode : Mode) (parity : Bool) (arg : Word)
deriving DecidableEq, Repr

/-- The diagnostic kinds of the assembler's Validator (R84). -/
inductive DiagnosticKind where
  | blankLine | leadingWhitespace | duplicateSeparator | separatorCase | separatorContent
  | mnemonicNotUppercase | unknownMnemonic | unexpectedArgument | argumentCount | argumentNotHex
  | dataLineFormat
deriving DecidableEq, Repr

end Sys2Proof
end

