-- ==== Sys2Proof/Config.lean ====
section
/-! DEFINITION. What an implementation fixes (the parameters of rule R7) and the free values of the
spec (opaque constants, of which nothing can be proved). -/

namespace Sys2Proof

/-- All mnemonics in the row order of the source's table: the default numbering of R7 (decision D1). -/
def Mnemonic.all : List Mnemonic :=
  [.nop, .not, .halt, .lod, .sto, .add, .sub, .mul, .div, .and, .jump, .jmpz, .cmpl, .cmpz]

/-- The OPEN parameters of rule R7 that the machine depends on, as plain data held in the state.
DESIGN CHOICE (log entries 1, 2, 3; safe: a statement over all states holds for every value). -/
structure Params where
  /-- DATA_SIZE: the number of data words (D3). -/
  dataSize : Nat
  /-- CODE_CAPACITY: the number of code cells (D4). -/
  codeCapacity : Nat
  /-- MNEMONIC_INDEX as a list: the mnemonic of index i stands at place i (D1). -/
  mnemonicOrder : List Mnemonic
deriving DecidableEq, Repr

/-- What R7 asks of the parameters: positive sizes and a bijection from the mnemonics to 0..13. -/
abbrev Params.Valid (p : Params) : Prop :=
  0 < p.dataSize ∧ 0 < p.codeCapacity ∧ p.mnemonicOrder.Perm Mnemonic.all

/-- The parameters `State.reset` has: the sizes the spec's own test vectors assume
(95_test_vectors.md) and the default numbering of R7. DESIGN CHOICE (log entries 1 and 2; unsafe for a
statement about the reset state alone). -/
def Params.default : Params :=
  { dataSize := 16, codeCapacity := 64, mnemonicOrder := Mnemonic.all }

/-- SENTINEL_BYTE: the end-of-code byte the Encoder emits (R7, R75, decision D17). -/
def sentinelByte : Byte := 0xFF#8

/-- Free draw number n of one Int32: changedDataIndex after `clear()` (R29, R201), and the registers
after a failed load (R214). Log entries 6 and 8. -/
opaque Config.drawWord : Nat → Word

/-- Free draw number n of a data array: the word at each index (R214). Log entry 8. -/
opaque Config.drawData : Nat → Nat → Word

/-- Free draw number n of a code array: the cell at each index (R214). Log entry 8. -/
opaque Config.drawCode : Nat → Nat → Option Instr

/-- Free draw number n of a programSize, before it is bounded by CODE_CAPACITY (R214). Log entry 8. -/
opaque Config.drawSize : Nat → Nat

/-- The message text of occurrence number n of an execution fault with a given code (R180: not in the
source, any value). DESIGN CHOICE (log entry 9; safe): the text is a function of the two, so two reports
of one occurrence have one text, and nothing relates the texts of two occurrences. -/
opaque Config.faultText : Nat → Nat → List Char

/-- The message text of the diagnostic of a given kind on a given line (the second number) in validation
number n (R85: not in the source, any value). DESIGN CHOICE (log entry 9; safe): the text is a function
of the three, so nothing relates the texts of two lines or of two validations. -/
opaque Config.diagnosticText : Nat → Nat → DiagnosticKind → List Char

end Sys2Proof
end

