-- ==== Sys2Proof/Decode.lean ====
section
/-! DEFINITION. The instruction codec (30_encoding.md): the opcode byte, the parity rule, the total
decoder, the encoder written from the same tables, and the table of legal pairs. -/

namespace Sys2Proof

/-! ### The fields of an Instruction record (R26) -/

def Instr.mnemonic : Instr → Mnemonic
  | .nop _ _ => .nop
  | .not _ _ => .not
  | .halt _ _ => .halt
  | .lod _ _ _ => .lod
  | .sto _ _ _ => .sto
  | .add _ _ _ => .add
  | .sub _ _ _ => .sub
  | .mul _ _ _ => .mul
  | .div _ _ _ => .div
  | .and _ _ _ => .and
  | .jump _ _ _ => .jump
  | .jmpz _ _ _ => .jmpz
  | .cmpl _ _ _ => .cmpl
  | .cmpz _ _ _ => .cmpz

def Instr.mode : Instr → Mode
  | .nop m _ | .not m _ | .halt m _ => m
  | .lod m _ _ | .sto m _ _ | .add m _ _ | .sub m _ _ | .mul m _ _ | .div m _ _ | .and m _ _
  | .jump m _ _ | .jmpz m _ _ | .cmpl m _ _ | .cmpz m _ _ => m

def Instr.parity : Instr → Bool
  | .nop _ p | .not _ p | .halt _ p => p
  | .lod _ p _ | .sto _ p _ | .add _ p _ | .sub _ p _ | .mul _ p _ | .div _ p _ | .and _ p _
  | .jump _ p _ | .jmpz _ p _ | .cmpl _ p _ | .cmpz _ p _ => p

/-- The argument, present exactly for an argument-taking mnemonic (R26, R64). -/
def Instr.arg : Instr → Option Word
  | .nop _ _ | .not _ _ | .halt _ _ => none
  | .lod _ _ a | .sto _ _ a | .add _ _ a | .sub _ _ a | .mul _ _ a | .div _ _ a | .and _ _ a
  | .jump _ _ a | .jmpz _ _ a | .cmpl _ _ a | .cmpz _ _ a => some a

/-- The record with the given fields; a zero-argument mnemonic has no place for `arg`. -/
def Instr.ofFields (m : Mnemonic) (mode : Mode) (parity : Bool) (arg : Word) : Instr :=
  match m with
  | .nop => .nop mode parity
  | .not => .not mode parity
  | .halt => .halt mode parity
  | .lod => .lod mode parity arg
  | .sto => .sto mode parity arg
  | .add => .add mode parity arg
  | .sub => .sub mode parity arg
  | .mul => .mul mode parity arg
  | .div => .div mode parity arg
  | .and => .and mode parity arg
  | .jump => .jump mode parity arg
  | .jmpz => .jmpz mode parity arg
  | .cmpl => .cmpl mode parity arg
  | .cmpz => .cmpz mode parity arg

/-- The argument-taking mnemonics (R64, decision D32): all but NOP, NOT and HALT. -/
def Mnemonic.takesArg : Mnemonic → Bool
  | .nop | .not | .halt => false
  | .lod | .sto | .add | .sub | .mul | .div | .and | .jump | .jmpz | .cmpl | .cmpz => true

/-- The length of an instruction in the image, in bytes (R65). -/
def Mnemonic.lengthBytes (m : Mnemonic) : Nat := if m.takesArg then 5 else 1

/-- LegalModes: the rows of the table of R70. -/
def legalModes : Mnemonic → List Mode
  | .nop => [.direct]
  | .not => [.direct]
  | .halt => [.direct]
  | .lod => [.direct, .immediate, .indirect]
  | .sto => [.direct, .indirect]
  | .add => [.direct, .immediate, .indirect]
  | .sub => [.direct, .immediate, .indirect]
  | .mul => [.direct, .immediate, .indirect]
  | .div => [.direct, .immediate, .indirect]
  | .and => [.direct, .immediate]
  | .jump => [.direct, .immediate, .indirect, .indirect2]
  | .jmpz => [.direct, .immediate, .indirect, .indirect2]
  | .cmpl => [.direct]
  | .cmpz => [.direct]

/-- The pair is legal by R70. -/
def legalMode (m : Mnemonic) (mode : Mode) : Bool := decide (mode ∈ legalModes m)

/-! ### The opcode byte (R60 to R63) -/

/-- The mode code of R61, as the two mode bits. -/
def Mode.bits : Mode → BitVec 2
  | .direct => 0#2
  | .immediate => 1#2
  | .indirect => 2#2
  | .indirect2 => 3#2

/-- The mode a mode code names (R61). -/
def Mode.ofBits (b : BitVec 2) : Mode :=
  if b = 0#2 then .direct else if b = 1#2 then .immediate else if b = 2#2 then .indirect else .indirect2

/-- MNEMONIC_INDEX (R7): the number of a mnemonic. -/
def Params.index (p : Params) (m : Mnemonic) : Nat := p.mnemonicOrder.idxOf m

/-- The inverse of MNEMONIC_INDEX; an index beyond the table names no mnemonic (R72). -/
def Params.mnemonicAt (p : Params) (i : Nat) : Option Mnemonic := p.mnemonicOrder[i]?

/-- The number of set bits (R9). -/
def popcount (b : Byte) : Nat := ((List.range 8).filter (fun k => b.getLsbD k)).length

/-- The opcode byte before its parity bit: index << 3 | mode << 1 (R60). -/
def fieldsByte (idx : Nat) (mode : Mode) : Byte :=
  (BitVec.ofNat 8 idx <<< 3) ||| ((mode.bits.setWidth 8) <<< 1)

/-- `parityFor` of R62: the bit that makes the set-bit count even. -/
def parityFor (idx : Nat) (mode : Mode) : Bool := popcount (fieldsByte idx mode) % 2 == 1

/-- The byte of an index, a mode and a parity bit (R60). -/
def packFields (idx : Nat) (mode : Mode) (parity : Bool) : Byte :=
  fieldsByte idx mode ||| (BitVec.ofBool parity).setWidth 8

/-- `encodeOpcode` of R62: the parity-adjusted opcode byte. -/
def encodeOpcode (p : Params) (m : Mnemonic) (mode : Mode) : Byte :=
  packFields (p.index m) mode (parityFor (p.index m) mode)

/-- `pack` of R67: the opcode byte of a stored Instruction, with its own parity bit. -/
def pack (p : Params) (i : Instr) : Byte := packFields (p.index i.mnemonic) i.mode i.parity

/-- The parity check of R63 and R102 on a stored Instruction. -/
def parityOk (p : Params) (i : Instr) : Bool := popcount (pack p i) % 2 == 0

/-! ### Decoding (R68) -/

/-- The verdicts of decoding one opcode byte (R68). -/
inductive Verdict where
  | sentinel
  | corrupt (b : Byte)
  | unknownMnemonic (b : Byte)
  | ok (m : Mnemonic) (mode : Mode) (parity : Bool)
deriving DecidableEq, Repr

/-- The three fields of an opcode byte read without any check of parity. -/
def splitByte (p : Params) (b : Byte) : Option (Mnemonic × Mode × Bool) :=
  (p.mnemonicAt (b.extractLsb' 3 4).toNat).map fun m =>
    (m, Mode.ofBits (b.extractLsb' 1 2), b.getLsbD 0)

/-- `decode` of R68, total on all 256 bytes: sign bit, then parity, then the index. -/
def decodeByte (p : Params) (b : Byte) : Verdict :=
  if b.getLsbD 7 then .sentinel
  else if popcount b % 2 = 1 then .corrupt b
  else
    match splitByte p b with
    | none => .unknownMnemonic b
    | some (m, mode, parity) => .ok m mode parity

/-- The argument of four image bytes, big-endian (R66, decision D2). -/
def argOfBytes (b0 b1 b2 b3 : Byte) : Word := b0 ++ b1 ++ b2 ++ b3

/-- The four image bytes of an argument, big-endian (R66, decision D2). -/
def argBytes (a : Word) : List Byte :=
  [a.extractLsb' 24 8, a.extractLsb' 16 8, a.extractLsb' 8 8, a.extractLsb' 0 8]

/-- What reading one instruction from image bytes gives: the instruction and the bytes after it, the
end-of-code sentinel and the bytes after it, or a refusal by name (R68, R213). -/
inductive Decoded where
  | ok (i : Instr) (rest : List Byte)
  | sentinel (rest : List Byte)
  | corrupt (b : Byte)
  | unknownMnemonic (b : Byte)
  | truncated
  | exhausted
deriving DecidableEq, Repr

/-- Read one instruction from image bytes: the opcode byte, then the argument if the mnemonic takes
one (R65, R66, R76). Total on any bytes. -/
def decodeInstr (p : Params) (bytes : List Byte) : Decoded :=
  match bytes with
  | [] => .exhausted
  | b :: rest =>
    match decodeByte p b with
    | .sentinel => .sentinel rest
    | .corrupt b => .corrupt b
    | .unknownMnemonic b => .unknownMnemonic b
    | .ok m mode parity =>
      if m.takesArg then
        match rest with
        | b0 :: b1 :: b2 :: b3 :: rest' => .ok (Instr.ofFields m mode parity (argOfBytes b0 b1 b2 b3)) rest'
        | _ => .truncated
      else .ok (Instr.ofFields m mode parity 0#32) rest

/-! ### The instruction of an opcode-table word -/

/-- The first five bytes of an instruction whose bits are `w`, the first byte in bits 7..0; bits from
`nbits` up are 0. Five bytes is the longest instruction (R65). -/
def tableBytes (nbits w : Nat) : List Byte :=
  (List.range 5).map fun k => BitVec.ofNat 8 ((w % 2 ^ nbits) / 2 ^ (8 * k))

/-- The instruction the decoder reads, under the default numbering, from the word `w` of a row of
spec/opcode_table.json; none where it refuses. -/
def decodeTableWord (nbits w : Nat) : Option Instr :=
  match decodeInstr Params.default (tableBytes nbits w) with
  | .ok i _ => some i
  | _ => none

/-- The record in the bytes of a word with NO check of parity, as a host may inject it with `setCode`
(R181, R222); none for a sentinel byte or an index that names no mnemonic, which no cell can hold
(R72, R103). -/
def injectWord (p : Params) (nbits w : Nat) : Option Instr :=
  match tableBytes nbits w with
  | [b, b0, b1, b2, b3] =>
    if b.getLsbD 7 then none
    else (splitByte p b).map fun f => Instr.ofFields f.1 f.2.1 f.2.2 (argOfBytes b0 b1 b2 b3)
  | _ => none

/-! ### Encoding (R62, R66, R86) -/

/-- The image bytes of an Instruction, with its own parity bit (R67), then its argument if it has one
(R65, R66). -/
def encode (p : Params) (i : Instr) : List Byte :=
  pack p i ::
    match i.arg with
    | some a => argBytes a
    | none => []

/-- The Instruction the Encoder emits for a mnemonic, a mode and an argument: its parity bit is the
computed one (R62). -/
def emitted (p : Params) (m : Mnemonic) (mode : Mode) (arg : Word) : Instr :=
  Instr.ofFields m mode (parityFor (p.index m) mode) arg

/-- The code segment of an image without its sentinel (R76). -/
def encodeCode (p : Params) (is : List Instr) : List Byte := (is.map (encode p)).flatten

/-- The data segment of an image: address and value of each pair, in order (R76). -/
def encodeData (ds : List (Word × Word)) : List Byte :=
  (ds.map fun d => argBytes d.1 ++ argBytes d.2).flatten

/-- The whole binary image: code segment, sentinel, data segment (R76, R86). The sentinel stands there
even when the code segment is empty. -/
def encodeImage (p : Params) (is : List Instr) (ds : List (Word × Word)) : List Byte :=
  encodeCode p is ++ sentinelByte :: encodeData ds

end Sys2Proof
end

