-- ==== Sys2Proof/WellFormed.lean ====
section
/-! DEFINITION. The two checks that make an Instruction record a legal instruction word (class "legal"
of rule R72): even parity and a mode its mnemonic supports. -/

namespace Sys2Proof

/-- A stored Instruction is well-formed when its opcode has even popcount (R63) and its mode is legal
for its mnemonic (R70). -/
abbrev WellFormed (p : Params) (i : Instr) : Prop :=
  parityOk p i = true ∧ legalMode i.mnemonic i.mode = true

end Sys2Proof
end

