-- ==== Sys2Proof/Machine/State.lean ====
section
/-! DEFINITION. The machine state as plain data (rule R20), the reasons a step can stop, and the state
right after reset (rules R33 and R200). -/

namespace Sys2Proof.Machine

/-- The two address spaces of R40. -/
inductive Space where
  | code | data
deriving DecidableEq, Repr

/-- The four execution faults with the info R180 records. A fault ends the step; the machine's state
stays what it was before the step (R186). All four are the spec's own, so none is a departure. -/
inductive Fault where
  /-- The fetched instruction's opcode has odd popcount. Raised by the step's parity checker (R102).
  Safe: the spec's own fault. -/
  | corruptInstruction (pc : Word) (opcode : Byte)
  /-- The mode code is not legal for the mnemonic. Raised by every handler's mode check (R104).
  Safe: the spec's own fault. -/
  | illegalInstruction (pc : Word) (m : Mnemonic) (modeBits : BitVec 2)
  /-- The divisor DIV sourced is 0. Raised by DIV (R143). Safe: the spec's own fault. -/
  | divideByZero (pc : Word)
  /-- A data index outside [0, DATA_SIZE), or a fetch pc outside [0, programSize) or at an empty cell.
  Raised by DataRead and DataWrite (R43, R44), by fetch (R101) and by the host's accessors (R221, R222).
  Safe: the spec's own fault. -/
  | indexFault (pc : Word) (space : Space) (index : Word)
deriving DecidableEq, Repr

/-- Why the model answers nothing. -/
inductive Refusal where
  /-- An instruction without a meaning. No arm of exec raises it now. Safe: the model stops. -/
  | notModelled (mnemonic : String)
  /-- `step` while `loaded` is 0, after a failed load (R100, R214). Raised by step. Safe: the spec itself
  says the step has no meaning and the model refuses it. -/
  | unloaded
  /-- `setProgramSize` outside 0..CODE_CAPACITY (R223). Raised by that host call only. Safe: the spec
  itself says the model refuses it. -/
  | badProgramSize (n : Int)
deriving DecidableEq, Repr

/-- The machine state: the tuple of R20 and two fields of the model's own. -/
structure State where
  /-- The parameters of R7; nothing changes them (log entry 3). -/
  params : Params
  /-- The accumulator (R21). -/
  acc : Word
  /-- The program counter, an index of a code cell (R22). -/
  pc : Word
  /-- The full code cells by index, strictly rising; an unlisted cell is empty (R25). -/
  code : List (Nat × Instr)
  /-- The count of loaded instructions (R27). -/
  programSize : Nat
  /-- The non-zero data words by index, strictly rising; an unlisted word is 0 (R28, R33). -/
  data : List (Nat × Word)
  /-- The index of the most recent data write (R29). -/
  changedDataIndex : Word
  /-- False after a failed load (R20, R214). -/
  loaded : Bool
  /-- The model's own field: the number of free draws made so far (log entry 6). No step reads it. -/
  draws : Nat
deriving DecidableEq, Repr

/-- The state `clear()` produces (R33, R201) for given parameters, after `n` earlier free draws: the
value of changedDataIndex is free draw number `n`. -/
def State.cleared (p : Params) (n : Nat) : State :=
  { params := p, acc := 0#32, pc := 0#32, code := [], programSize := 0, data := [],
    changedDataIndex := Config.drawWord n, loaded := true, draws := n + 1 }

/-- The machine right after reset: the post-clear state (R200, decision D15), at the default
parameters (log entries 1 and 2). -/
def State.reset : State := State.cleared Params.default 0

/-- One step's outcome in the host's three cases. `next` stands for Continue and for Halted, `fault`
for the spec's Fault (R12; log entry 4). -/
abbrev Result := Host.Outcome State Fault Refusal

end Sys2Proof.Machine
end

