-- ==== Sys2Proof/Machine/Ops.lean ====
section
/-! DEFINITION. The named operations over the two arrays and the registers (20_memory.md, R101, R102,
R104), raising a fault (R184), `clear` (R201), and placing an instruction where the next step fetches. -/

namespace Sys2Proof.Machine

/-! ### Sparse arrays

An array is a list of (index, value) pairs. An operation holds on every list; `Ordered` is the
canonical form every operation keeps. -/

/-- Indices strictly rise, so none repeats. -/
abbrev Ordered {α : Type} (c : List (Nat × α)) : Prop := c.Pairwise (fun a b => a.1 < b.1)

/-- The value listed at index k. -/
def cellGet {α : Type} (k : Nat) (c : List (Nat × α)) : Option α :=
  match c with
  | [] => none
  | e :: r => if e.1 = k then some e.2 else cellGet k r

/-- List `a` at index k, replacing what stood there. -/
def cellSet {α : Type} (k : Nat) (a : α) (c : List (Nat × α)) : List (Nat × α) :=
  match c with
  | [] => [(k, a)]
  | e :: r =>
    if k < e.1 then (k, a) :: e :: r
    else if e.1 = k then (k, a) :: r
    else e :: cellSet k a r

/-- List nothing at index k. -/
def cellErase {α : Type} (k : Nat) (c : List (Nat × α)) : List (Nat × α) :=
  c.filter (fun e => e.1 ≠ k)

/-- The value an array has at k after `cellPut k v` is `v`. -/
def cellPut {α : Type} (k : Nat) (v : Option α) (c : List (Nat × α)) : List (Nat × α) :=
  match v with
  | some a => cellSet k a c
  | none => cellErase k c

/-! ### The data array (R28, R41, R43, R44) -/

/-- What a data word that is not listed reads as: 0, since `clearData` zero-fills (R28, R33). -/
def unlistedWord : Word := 0#32

/-- The canonical form of the data array: rising indices below DATA_SIZE, no listed 0. -/
abbrev Memory.wf (size : Nat) (m : List (Nat × Word)) : Prop :=
  Ordered m ∧ ∀ e ∈ m, e.1 < size ∧ e.2 ≠ unlistedWord

/-- A data index names a word exactly if 0 <= i < DATA_SIZE, as a signed number (R41). -/
abbrev Addressable (s : State) (i : Word) : Prop := 0 ≤ i.toInt ∧ i.toInt < (s.params.dataSize : Int)

/-- The data word at index i; it says nothing for an index that is not addressable. -/
def wordAt (s : State) (i : Word) : Word := (cellGet i.toNat s.data).getD unlistedWord

/-- The data array with `v` at index i; writing what an unlisted word reads as lists nothing. -/
def setWord (i v : Word) (m : List (Nat × Word)) : List (Nat × Word) :=
  cellPut i.toNat (if v = unlistedWord then none else some v) m

/-- DataRead (R43). -/
def dataRead (s : State) (i : Word) : Except Fault Word :=
  if Addressable s i then .ok (wordAt s i) else .error (.indexFault s.pc .data i)

/-- The two effects of a data write that is in range: the word, and the recorded index (R29, R44). -/
def putWord (s : State) (i v : Word) : State :=
  { s with data := setWord i v s.data, changedDataIndex := i }

/-- DataWrite (R44): an index out of range changes nothing. -/
def dataWrite (s : State) (i v : Word) : Except Fault State :=
  if Addressable s i then .ok (putWord s i v) else .error (.indexFault s.pc .data i)

/-! ### The code array (R25, R101) -/

/-- The canonical form of the code array: rising indices below CODE_CAPACITY. -/
abbrev Code.wf (capacity : Nat) (c : List (Nat × Instr)) : Prop :=
  Ordered c ∧ ∀ e ∈ c, e.1 < capacity

/-- The code cell at index i: an instruction, or empty (R25). -/
def cellAt (s : State) (i : Word) : Option Instr := cellGet i.toNat s.code

/-- A code index names a cell exactly if 0 <= i < CODE_CAPACITY (R222). -/
abbrev InCode (s : State) (i : Word) : Prop := 0 ≤ i.toInt ∧ i.toInt < (s.params.codeCapacity : Int)

/-- The state with an instruction in code cell i (R222). -/
def putCell (s : State) (i : Word) (x : Instr) : State :=
  { s with code := cellPut i.toNat (some x) s.code }

/-- The pc bounds the fetch checks (R101). -/
abbrev Fetchable (s : State) : Prop :=
  0 ≤ s.pc.toInt ∧ s.pc.toInt < (s.programSize : Int) ∧ s.pc.toInt < (s.params.codeCapacity : Int)

/-- CodeFetch (R101): the instruction at the pc, or IndexFault in the code space. -/
def codeFetch (s : State) : Except Fault Instr :=
  if Fetchable s then
    match cellAt s s.pc with
    | some i => .ok i
    | none => .error (.indexFault s.pc .code s.pc)
  else .error (.indexFault s.pc .code s.pc)

/-- The parity checker (R102): a fetched instruction passes if its opcode has even popcount. -/
def fetchChecked (s : State) : Except Fault Instr :=
  match codeFetch s with
  | .error f => .error f
  | .ok i =>
    if parityOk s.params i then .ok i else .error (.corruptInstruction s.pc (pack s.params i))

/-! ### Raising a fault, and going on -/

/-- Raise a fault (R11, R180, R184): the step ends; there is no handler, no vector and no saved
register, and the machine keeps the state before the step (R186), so a fault carries none. -/
def raise (f : Fault) : Result := .fault f

/-- Go on with the value of a checked access, or raise its fault. -/
def attempt {α : Type} (r : Except Fault α) (k : α → Result) : Result :=
  match r with
  | .ok a => k a
  | .error f => raise f

/-- The fault of R104: it names the mnemonic and the mode bits. -/
def illegal (s : State) (m : Mnemonic) (mode : Mode) : Fault :=
  .illegalInstruction s.pc m mode.bits

/-- `checkMode` of R104, run first in every handler. -/
def withMode (m : Mnemonic) (mode : Mode) (s : State) (k : Result) : Result :=
  if legalMode m mode then k else raise (illegal s m mode)

/-- The pc of the next instruction: wrap32(pc + 1) (R22, decision D7). -/
def nextPc (s : State) : Word := wrap32 (s.pc.toInt + 1)

/-- Continue at the next instruction with a new accumulator. -/
def continueWith (s : State) (acc : Word) : Result := .next { s with acc := acc, pc := nextPc s }

/-- Continue at a given pc (R163: any Int32, not checked in this step). -/
def continueAt (s : State) (pc : Word) : Result := .next { s with pc := pc }

/-! ### Clearing (R201) -/

/-- `clear()` (R201): a host operation, never a step; the parameters stay. -/
def clear (s : State) : State := State.cleared s.params s.draws

/-! ### Placing an instruction for the next step -/

/-- The state whose next step fetches `cell` (R101): the pc stays where it is if it names a cell, else
it goes to the entry point 0; programSize reaches past it, and `loaded` is 1. It stands for the load
that put a program there (R215; log entry 5). -/
def placeAtPc (s : State) (cell : Option Instr) : State :=
  let pc := if InCode s s.pc then s.pc else 0#32
  { s with
    pc := pc
    code := cellPut pc.toNat cell s.code
    programSize := max s.programSize (pc.toNat + 1)
    loaded := true }

end Sys2Proof.Machine
end

