-- ==== Sys2Proof/Machine/Operands.lean ====
section
/-! DEFINITION. Operand routing: the value operand (R106), the store address (R107) and the jump
target (R162). Each takes the mnemonic only to name the fault of a mode that `withMode` has already
refused, which the spec calls unreachable. -/

namespace Sys2Proof.Machine

/-- Two reads, the inner one first, each checked on its own (R45). -/
def readThrough (s : State) (a : Word) : Except Fault Word :=
  match dataRead s a with
  | .ok ptr => dataRead s ptr
  | .error f => .error f

/-- `operand(mode, arg)` of R106. -/
def operand (m : Mnemonic) (mode : Mode) (arg : Word) (s : State) : Except Fault Word :=
  match mode with
  | .direct => dataRead s arg
  | .immediate => .ok arg
  | .indirect => readThrough s arg
  | .indirect2 => .error (illegal s m .indirect2)

/-- `storeAddress(mode, arg)` of R107. -/
def storeAddress (m : Mnemonic) (mode : Mode) (arg : Word) (s : State) : Except Fault Word :=
  match mode with
  | .direct => .ok arg
  | .indirect => dataRead s arg
  | .immediate => .error (illegal s m .immediate)
  | .indirect2 => .error (illegal s m .indirect2)

/-- pc plus an offset, the base being the jump's own index (R162, decision D7). -/
def pcPlus (s : State) (offset : Word) : Word := wrap32 (s.pc.toInt + offset.toInt)

/-- `jumpTarget(mode, arg)` of R162: DIRECT and INDIRECT are relative, IMMEDIATE and INDIRECT2 are
absolute (R108). -/
def jumpTarget (mode : Mode) (arg : Word) (s : State) : Except Fault Word :=
  match mode with
  | .direct => .ok (pcPlus s arg)
  | .immediate => .ok arg
  | .indirect => (dataRead s arg).map (pcPlus s)
  | .indirect2 => dataRead s arg

end Sys2Proof.Machine
end

