-- ==== Sys2Proof/Machine/Flags.lean ====
section
/-! DEFINITION. The machine has no flags (R24): a condition is computed when it is needed, from the
accumulator or a data word, and a result is left as 1 or 0 in the accumulator. The wrapped arithmetic
of R145 and R146 stands here too: it sets nothing beside its result. -/

namespace Sys2Proof.Machine

/-- The test `v = 0` of NOT, AND, JMPZ and CMPZ. -/
def isZero (v : Word) : Bool := v == 0#32

/-- The signed test `v < 0` of CMPL (R170). -/
def isNegative (v : Word) : Bool := decide (v.toInt < 0)

/-- A truth value as the 1 or 0 an instruction leaves (R24). -/
def truthWord (b : Bool) : Word := if b then 1#32 else 0#32

/-- The logical, not bitwise, AND of R144: 1 if both words are non-zero, else 0. -/
def logicalAnd (a v : Word) : Word := truthWord (!isZero a && !isZero v)

/-- R145: the exact sum, wrapped (decision D5). -/
def add32 (a b : Word) : Word := wrap32 (a.toInt + b.toInt)

/-- R145: the exact difference, wrapped (decision D5). -/
def sub32 (a b : Word) : Word := wrap32 (a.toInt - b.toInt)

/-- R145: the exact product, wrapped: its low 32 bits (decision D5). -/
def mul32 (a b : Word) : Word := wrap32 (a.toInt * b.toInt)

/-- R146: the quotient truncated toward zero, wrapped (decision D6). DIV raises DivideByZero before it
could reach here with b = 0. -/
def div32 (a b : Word) : Word := wrap32 (Int.tdiv a.toInt b.toInt)

end Sys2Proof.Machine
end

