-- ==== Sys2Proof/Machine/Arith.lean ====
section
/-! DEFINITION. ADD, SUB, MUL, DIV and AND (43_arith_logic.md). -/

namespace Sys2Proof.Machine

/-- The shape ADD, SUB, MUL and AND share: source the operand (R106), leave `f acc operand`. -/
def accumulate (m : Mnemonic) (f : Word → Word → Word) (mode : Mode) (arg : Word) (s : State) : Result :=
  withMode m mode s
    (attempt (operand m mode arg s) fun v => continueWith s (f s.acc v))

/-- ADD (R140). -/
def execAdd (mode : Mode) (arg : Word) (s : State) : Result := accumulate .add add32 mode arg s

/-- SUB (R141): the accumulator minus the operand. -/
def execSub (mode : Mode) (arg : Word) (s : State) : Result := accumulate .sub sub32 mode arg s

/-- MUL (R142). -/
def execMul (mode : Mode) (arg : Word) (s : State) : Result := accumulate .mul mul32 mode arg s

/-- DIV (R143): the operand reads are checked before the divisor (R109). -/
def execDiv (mode : Mode) (arg : Word) (s : State) : Result :=
  withMode .div mode s
    (attempt (operand .div mode arg s) fun v =>
      if isZero v then raise (.divideByZero s.pc) else continueWith s (div32 s.acc v))

/-- AND (R144): logical; the operand is read even when the accumulator is 0 (decision D34). -/
def execAnd (mode : Mode) (arg : Word) (s : State) : Result :=
  accumulate .and logicalAnd mode arg s

end Sys2Proof.Machine
end

