-- ==== Sys2Proof/Machine/Compare.lean ====
section
/-! DEFINITION. CMPL and CMPZ (45_compare.md). -/

namespace Sys2Proof.Machine

/-- CMPL (R170): a signed test of a data word; the old accumulator is not compared. -/
def execCmpl (mode : Mode) (arg : Word) (s : State) : Result :=
  withMode .cmpl mode s
    (attempt (dataRead s arg) fun v => continueWith s (truthWord (isNegative v)))

/-- CMPZ (R171). -/
def execCmpz (mode : Mode) (arg : Word) (s : State) : Result :=
  withMode .cmpz mode s
    (attempt (dataRead s arg) fun v => continueWith s (truthWord (isZero v)))

end Sys2Proof.Machine
end

