-- ==== Sys2Proof/Machine/Control.lean ====
section
/-! DEFINITION. NOP, NOT and HALT (41_control_misc.md). -/

namespace Sys2Proof.Machine

/-- NOP (R120). -/
def execNop (mode : Mode) (s : State) : Result :=
  withMode .nop mode s (continueAt s (nextPc s))

/-- NOT (R121): logical, not bitwise. -/
def execNot (mode : Mode) (s : State) : Result :=
  withMode .not mode s (continueWith s (truthWord (isZero s.acc)))

/-- HALT (R122): nothing changes, the pc included; a later step executes the same HALT again (R31). That
the step's outcome is Halted and not Continue is said by `stepOutcome` (DESIGN CHOICE, log entry 4;
safe). -/
def execHalt (mode : Mode) (s : State) : Result :=
  withMode .halt mode s (.next s)

end Sys2Proof.Machine
end

