-- ==== Sys2Proof/Machine/Jumps.lean ====
section
/-! DEFINITION. JUMP and JMPZ (44_jumps.md). -/

namespace Sys2Proof.Machine

/-- JUMP (R160): no separate pc+1; the target is not checked in this step (R163). -/
def execJump (mode : Mode) (arg : Word) (s : State) : Result :=
  withMode .jump mode s
    (attempt (jumpTarget mode arg s) fun t => continueAt s t)

/-- JMPZ (R161): the target is computed, and data[arg] read, whether or not it is taken (D10). -/
def execJmpz (mode : Mode) (arg : Word) (s : State) : Result :=
  withMode .jmpz mode s
    (attempt (jumpTarget mode arg s) fun t =>
      continueAt s (if isZero s.acc then t else nextPc s))

end Sys2Proof.Machine
end

