-- ==== Sys2Proof/Machine/LoadStore.lean ====
section
/-! DEFINITION. LOD and STO (42_load_store.md). -/

namespace Sys2Proof.Machine

/-- LOD (R130). -/
def execLod (mode : Mode) (arg : Word) (s : State) : Result :=
  withMode .lod mode s
    (attempt (operand .lod mode arg s) fun v => continueWith s v)

/-- STO (R131): the address is routed first, then DataWrite checks it (R109). -/
def execSto (mode : Mode) (arg : Word) (s : State) : Result :=
  withMode .sto mode s
    (attempt (storeAddress .sto mode arg s) fun a =>
      attempt (dataWrite s a s.acc) fun t => continueAt t (nextPc s))

end Sys2Proof.Machine
end

