-- ==== Sys2Proof/Machine/Dispatch.lean ====
section
/-! DEFINITION. The dispatch by mnemonic (R103): one arm per constructor, no default. -/

namespace Sys2Proof.Machine

def exec (i : Instr) (s : State) : Host.Outcome State Fault Refusal :=
  match i with
  | .nop mode _ => Sys2Proof.Machine.execNop mode s
  | .not mode _ => Sys2Proof.Machine.execNot mode s
  | .halt mode _ => Sys2Proof.Machine.execHalt mode s
  | .lod mode _ arg => Sys2Proof.Machine.execLod mode arg s
  | .sto mode _ arg => Sys2Proof.Machine.execSto mode arg s
  | .add mode _ arg => Sys2Proof.Machine.execAdd mode arg s
  | .sub mode _ arg => Sys2Proof.Machine.execSub mode arg s
  | .mul mode _ arg => Sys2Proof.Machine.execMul mode arg s
  | .div mode _ arg => Sys2Proof.Machine.execDiv mode arg s
  | .and mode _ arg => Sys2Proof.Machine.execAnd mode arg s
  | .jump mode _ arg => Sys2Proof.Machine.execJump mode arg s
  | .jmpz mode _ arg => Sys2Proof.Machine.execJmpz mode arg s
  | .cmpl mode _ arg => Sys2Proof.Machine.execCmpl mode arg s
  | .cmpz mode _ arg => Sys2Proof.Machine.execCmpz mode arg s

end Sys2Proof.Machine
end

