-- ==== Sys2Proof/Machine/Step.lean ====
section
/-! DEFINITION. One step of the machine (R100, R110), and the placing of a word for the next step. -/

namespace Sys2Proof.Machine

/-- `step()` (R110): loaded, fetch, parity, then the handler, whose first check is the mode (R109). -/
def step (s : State) : Host.Outcome State Fault Refusal :=
  if s.loaded then attempt (fetchChecked s) (fun i => exec i s) else .refused .unloaded

/-- The state whose next step fetches the instruction in the bits of `w`, the numbering of the bits
being the opcode table's. A word no cell can hold (a sentinel, or an index that names no mnemonic)
leaves the cell empty. -/
def State.withFetchWord (s : State) (nbits w : Nat) : State :=
  placeAtPc s (injectWord s.params nbits w)

end Sys2Proof.Machine
end

