-- ==== Sys2Proof/Machine/Render.lean ====
section
/-! DEFINITION. The text and binary-hex renderings of an Instruction (R77 to R79), as lists of
characters. -/

namespace Sys2Proof.Machine

/-- The name of a mnemonic, in upper case (R81). -/
def mnemonicName (m : Mnemonic) : List Char :=
  match m with
  | .nop => ['N', 'O', 'P']
  | .not => ['N', 'O', 'T']
  | .halt => ['H', 'A', 'L', 'T']
  | .lod => ['L', 'O', 'D']
  | .sto => ['S', 'T', 'O']
  | .add => ['A', 'D', 'D']
  | .sub => ['S', 'U', 'B']
  | .mul => ['M', 'U', 'L']
  | .div => ['D', 'I', 'V']
  | .and => ['A', 'N', 'D']
  | .jump => ['J', 'U', 'M', 'P']
  | .jmpz => ['J', 'M', 'P', 'Z']
  | .cmpl => ['C', 'M', 'P', 'L']
  | .cmpz => ['C', 'M', 'P', 'Z']

/-- The prefix of a mode (R61, R77). -/
def modePrefix (mode : Mode) : List Char :=
  match mode with
  | .direct => []
  | .immediate => ['#']
  | .indirect => ['@']
  | .indirect2 => ['&']

/-- The upper-case hexadecimal digit of a value below 16. -/
def hexDigit (d : Nat) : Char := if d < 10 then Char.ofNat (48 + d) else Char.ofNat (55 + d)

/-- Hexadecimal digits, no leading zeros, of a number below 16^(fuel+1). -/
def hexDigits (fuel n : Nat) : List Char :=
  match fuel with
  | 0 => [hexDigit (n % 16)]
  | k + 1 => if n < 16 then [hexDigit n] else hexDigits k (n / 16) ++ [hexDigit (n % 16)]

/-- The hex rendering of an Int32 (R79): a sign and the magnitude, at most 8 digits. -/
def renderHex (v : Word) : List Char :=
  if v.toInt < 0 then '-' :: hexDigits 7 (-v.toInt).toNat else hexDigits 7 v.toInt.toNat

/-- The text form (R77): mnemonic, two spaces, prefix, hex argument; the mnemonic alone if there is no
argument. -/
def renderText (i : Instr) : List Char :=
  match i.arg with
  | none => mnemonicName i.mnemonic
  | some a => mnemonicName i.mnemonic ++ ' ' :: ' ' :: (modePrefix i.mode ++ renderHex a)

/-- Eight binary digits, most significant first (R78). -/
def binaryDigits (b : Byte) : List Char :=
  [7, 6, 5, 4, 3, 2, 1, 0].map fun k => if b.getLsbD k then '1' else '0'

/-- The binary-hex form (R78), with the stored parity bit (R67). -/
def renderBinary (p : Params) (i : Instr) : List Char :=
  match i.arg with
  | none => binaryDigits (pack p i)
  | some a => binaryDigits (pack p i) ++ ' ' :: ' ' :: renderHex a

end Sys2Proof.Machine
end

