-- ==== Sys2Proof/Machine/Assembler.lean ====
section
/-! DEFINITION. The assembler (R80 to R87): tokens, hex literals, the Validator's eight checks and the
Encoder. It turns source lines into an image and touches no machine state. -/

namespace Sys2Proof.Machine

/-! ### Characters, lines and tokens (R81, decision D26) -/

/-- White space inside a line: space and tab (D26). -/
def isSpace (c : Char) : Bool := c == ' ' || c == '\t'

/-- Upper-casing, for the tests 'ignoring case' and 'after upper-casing' of R84. DESIGN CHOICE (log entry
14): the letters a to z have case and no other character has, so a keyword with another letter matches
only in its own spelling there. -/
def upper (c : Char) : Char := if 97 ≤ c.toNat ∧ c.toNat ≤ 122 then Char.ofNat (c.toNat - 32) else c

/-- The lines of a source text; line feed ends a line (log entry 13). -/
def splitLines (text : List Char) : List (List Char) :=
  match text with
  | [] => [[]]
  | c :: r =>
    if c = '\n' then [] :: splitLines r
    else
      match splitLines r with
      | l :: ls => (c :: l) :: ls
      | [] => [[c]]

/-- Put a non-empty word before the tokens after it. -/
def closeToken (w : List Char) (ts : List (List Char)) : List (List Char) := if w = [] then ts else w :: ts

/-- The word a line starts with (empty if it starts with white space) and the tokens after it. -/
def wordAndTokens (line : List Char) : List Char × List (List Char) :=
  match line with
  | [] => ([], [])
  | c :: r =>
    if isSpace c then ([], closeToken (wordAndTokens r).1 (wordAndTokens r).2)
    else (c :: (wordAndTokens r).1, (wordAndTokens r).2)

/-- The maximal runs of non-white-space characters of a line (R81, D26). -/
def tokens (line : List Char) : List (List Char) := closeToken (wordAndTokens line).1 (wordAndTokens line).2

/-- A line is blank when it is empty or white space only (R84 check 1). -/
def isBlankLine (line : List Char) : Bool := line.all isSpace

/-- The lines without the final run of blank lines, which belongs to no segment (R80). -/
def bodyLines (lines : List (List Char)) : List (List Char) :=
  (lines.reverse.dropWhile isBlankLine).reverse

/-! ### Hex literals and operands (R81, R83) -/

/-- The value of a hex digit, of either case (R83). -/
def hexValue (c : Char) : Option Nat :=
  if 48 ≤ c.toNat ∧ c.toNat ≤ 57 then some (c.toNat - 48)
  else if 65 ≤ c.toNat ∧ c.toNat ≤ 70 then some (c.toNat - 55)
  else if 97 ≤ c.toNat ∧ c.toNat ≤ 102 then some (c.toNat - 87)
  else none

/-- The number of a run of hex digits, continuing from `n`. -/
def hexNumber (n : Nat) (ds : List Char) : Option Nat :=
  match ds with
  | [] => some n
  | d :: r =>
    match hexValue d with
    | some v => hexNumber (16 * n + v) r
    | none => none

/-- One or more hex digits with a magnitude up to `limit`. -/
def hexMagnitude (limit : Nat) (ds : List Char) : Option Nat :=
  if ds = [] then none
  else
    match hexNumber 0 ds with
    | some n => if n ≤ limit then some n else none
    | none => none

/-- A hex literal (R83): an optional sign, then digits, with a value in Int32. -/
def parseHex (t : List Char) : Option Word :=
  match t with
  | '-' :: ds => (hexMagnitude 0x80000000 ds).map fun (n : Nat) => wrap32 (-(n : Int))
  | ds => (hexMagnitude 0x7FFFFFFF ds).map fun (n : Nat) => wrap32 (n : Int)

/-- The prefix of an operand token and what is left of it (R61, R81). -/
def splitPrefix (t : List Char) : Mode × List Char :=
  match t with
  | '#' :: r => (.immediate, r)
  | '@' :: r => (.indirect, r)
  | '&' :: r => (.indirect2, r)
  | r => (.direct, r)

/-- The mnemonic a token spells in upper case (R81). -/
def mnemonicOf (t : List Char) : Option Mnemonic := Mnemonic.all.find? fun m => mnemonicName m == t

/-- What R7 and decision D23 ask of SEPARATOR_KEYWORD: non-empty, no white space, no mnemonic in any
case. -/
def validKeyword (kw : List Char) : Bool :=
  !kw.isEmpty && !kw.any isSpace && !kw.contains '\n' && (mnemonicOf (kw.map upper)).isNone

/-! ### The Validator (R84) -/

/-- A separator candidate: the first token equals the keyword ignoring case (R84 check 3). -/
def isCandidate (kw line : List Char) : Bool :=
  match tokens line with
  | t :: _ => t.map upper == kw.map upper
  | [] => false

/-- Check 3 on the separator line itself: case first, then content (decision D25). -/
def separatorDiagnostic (kw line : List Char) : Option DiagnosticKind :=
  match tokens line with
  | t :: r => if t ≠ kw then some .separatorCase else if r ≠ [] then some .separatorContent else none
  | [] => none

/-- Checks 5 and 6 on the tokens after a known mnemonic. -/
def operandDiagnostic (m : Mnemonic) (r : List (List Char)) : Option DiagnosticKind :=
  if m.takesArg then
    match r with
    | [t] => if (parseHex (splitPrefix t).2).isSome then none else some .argumentNotHex
    | _ => some .argumentCount
  else if r ≠ [] then some .unexpectedArgument
  else none

/-- Checks 4 to 6, in the code segment. -/
def codeDiagnostic (line : List Char) : Option DiagnosticKind :=
  match tokens line with
  | [] => none
  | t :: r =>
    match mnemonicOf t with
    | some m => operandDiagnostic m r
    | none => if (mnemonicOf (t.map upper)).isSome then some .mnemonicNotUppercase else some .unknownMnemonic

/-- Check 7, in the data segment. -/
def dataDiagnostic (line : List Char) : Option DiagnosticKind :=
  match tokens line with
  | [a, v] => if (parseHex a).isSome ∧ (parseHex v).isSome then none else some .dataLineFormat
  | _ => some .dataLineFormat

/-- The first check that matches a line of the body (R84). `seen` says whether a separator candidate
stands on an earlier line. A blank line of the body has a later line that is not blank. -/
def lineDiagnostic (kw : List Char) (seen : Bool) (line : List Char) : Option DiagnosticKind :=
  if isBlankLine line then some .blankLine
  else if (line.head?.map isSpace).getD false then some .leadingWhitespace
  else if isCandidate kw line then (if seen then some .duplicateSeparator else separatorDiagnostic kw line)
  else if seen then dataDiagnostic line
  else codeDiagnostic line

/-- The diagnostics of the lines from line number `n` on, ascending by line (R84, R85). -/
def diagnose (kw : List Char) (seen : Bool) (n : Nat) (lines : List (List Char)) :
    List (Nat × DiagnosticKind) :=
  match lines with
  | [] => []
  | l :: r =>
    match lineDiagnostic kw seen l with
    | some d => (n, d) :: diagnose kw (seen || isCandidate kw l) (n + 1) r
    | none => diagnose kw (seen || isCandidate kw l) (n + 1) r

/-- The Validator: the diagnostics of a source file, lines numbered from 1 (R80, R84). -/
def validate (kw : List Char) (lines : List (List Char)) : List (Nat × DiagnosticKind) :=
  diagnose kw false 1 (bodyLines lines)

/-! ### The Encoder (R86) -/

/-- The instruction of a code line (R81): a zero-argument mnemonic is encoded with mode DIRECT. -/
def parseCodeLine (p : Params) (line : List Char) : Option Instr :=
  match tokens line with
  | [t] => (mnemonicOf t).map fun m => emitted p m .direct 0#32
  | [t, o] =>
    match mnemonicOf t, parseHex (splitPrefix o).2 with
    | some m, some a => some (emitted p m (splitPrefix o).1 a)
    | _, _ => none
  | _ => none

/-- The pair of a data line (R82). -/
def parseDataLine (line : List Char) : Option (Word × Word) :=
  match tokens line with
  | [a, v] =>
    match parseHex a, parseHex v with
    | some x, some y => some (x, y)
    | _, _ => none
  | _ => none

/-- The instructions of the code segment: the lines before the separator (R80). -/
def codeOf (p : Params) (kw : List Char) (lines : List (List Char)) : List Instr :=
  ((bodyLines lines).takeWhile fun l => !isCandidate kw l).filterMap (parseCodeLine p)

/-- The pairs of the data segment: the lines after the separator (R80). -/
def dataOf (kw : List Char) (lines : List (List Char)) : List (Word × Word) :=
  (((bodyLines lines).dropWhile fun l => !isCandidate kw l).drop 1).filterMap parseDataLine

/-- What the assembler gives its caller (R85, R86). -/
inductive Assembled where
  | image (bytes : List Byte)
  | diagnostics (ds : List (Nat × DiagnosticKind))
  | encodeFailure
deriving DecidableEq, Repr

/-- Assemble source lines (R85, R86): the Encoder runs only if there is no diagnostic. `writable` says
whether the image file can be written; if not, the encoding is an EncodeFailure, which is no line
diagnostic. -/
def assemble (p : Params) (kw : List Char) (writable : Bool) (lines : List (List Char)) : Assembled :=
  if validate kw lines = [] then
    if writable then .image (encodeImage p (codeOf p kw lines) (dataOf kw lines)) else .encodeFailure
  else .diagnostics (validate kw lines)

/-- Assemble a source text (R80). -/
def assembleText (p : Params) (kw : List Char) (writable : Bool) (text : List Char) : Assembled :=
  assemble p kw writable (splitLines text)

/-- The assembler's status (R85, R86, decision D24): 0 for success, the smallest flagged line number, or
a failure that is no line number. -/
def assembleStatus (r : Assembled) : Option Nat :=
  match r with
  | .image _ => some 0
  | .diagnostics ds => (ds.map Prod.fst).min?
  | .encodeFailure => none

/-- All diagnostics of validation number `n` as one text, newline-joined, ascending by line (R85). The
message texts are free values, and whether one spells out its line number is theirs (log entry 9). -/
def diagnosticReport (n : Nat) (ds : List (Nat × DiagnosticKind)) : List Char :=
  (ds.map fun d => Config.diagnosticText n d.1 d.2).intersperse ['\n'] |>.flatten

end Sys2Proof.Machine
end

