-- ==== Sys2Proof/Machine/Loader.lean ====
section
/-! DEFINITION. The boot operation `load` (R212 to R214) over the binary image of R76. -/

namespace Sys2Proof.Machine

/-- What the image path leads to (R212, R214): no file, a file that cannot be read, or the bytes read. The
file system itself is outside the machine (log entry 12). -/
inductive ImageFile where
  | missing
  | ioError
  | bytes (bs : List Byte)
deriving DecidableEq, Repr

/-- The reasons a load fails (R212 to R214, decision D16). They are no execution faults (R196). -/
inductive LoadFailure where
  | missingFile
  | ioError
  | noSentinel
  | corruptInstruction (b : Byte)
  | unknownMnemonic (b : Byte)
  | truncatedArgument
  | codeCapacity
  | truncatedPair
  | dataAddress (i : Word)
deriving DecidableEq, Repr

/-- The status `load` returns (R212). -/
inductive LoadStatus where
  | success
  | failure (e : LoadFailure)
deriving DecidableEq, Repr

/-- What the code phase leaves: the code array, the number of instructions, and the bytes after the
sentinel. -/
structure CodePhase where
  code : List (Nat × Instr)
  count : Nat
  rest : List Byte
deriving DecidableEq, Repr

/-- The code phase of R213: cell `n` takes the next instruction, until the sentinel. Each round takes at
least one byte, so a fuel above the number of bytes never runs out before the image does. -/
def loadCode (p : Params) (fuel : Nat) (bytes : List Byte) (n : Nat) (code : List (Nat × Instr)) :
    Except LoadFailure CodePhase :=
  match fuel with
  | 0 => .error .noSentinel
  | k + 1 =>
    match decodeInstr p bytes with
    | .exhausted => .error .noSentinel
    | .sentinel rest => .ok { code := code, count := n, rest := rest }
    | .corrupt b => .error (.corruptInstruction b)
    | .unknownMnemonic b => .error (.unknownMnemonic b)
    | .truncated => .error .truncatedArgument
    | .ok i rest =>
      if n < p.codeCapacity then loadCode p k rest (n + 1) (cellPut n (some i) code)
      else .error .codeCapacity

/-- The data phase of R213: each address and value pair goes through DataWrite, in order. -/
def loadData (s : State) (bytes : List Byte) : Except LoadFailure State :=
  match bytes with
  | [] => .ok s
  | a0 :: a1 :: a2 :: a3 :: v0 :: v1 :: v2 :: v3 :: rest =>
    match dataWrite s (argOfBytes a0 a1 a2 a3) (argOfBytes v0 v1 v2 v3) with
    | .ok t => loadData t rest
    | .error _ => .error (.dataAddress (argOfBytes a0 a1 a2 a3))
  | _ => .error .truncatedPair

/-- Both phases of R213 on a cleared state. -/
def loadImage (s : State) (bytes : List Byte) : Except LoadFailure State :=
  match loadCode s.params (bytes.length + 1) bytes 0 s.code with
  | .error e => .error e
  | .ok c => loadData { s with code := c.code, programSize := c.count } c.rest

/-- The state after a failed load (R214, decision D16): `loaded` is 0 and every other element is a free
draw, within the widths and bounds its kind of state has (log entry 8). -/
def unloadedState (s : State) : State :=
  { params := s.params
    acc := Config.drawWord s.draws
    pc := Config.drawWord (s.draws + 1)
    code := (List.range s.params.codeCapacity).filterMap fun i =>
      (Config.drawCode s.draws i).map fun x => (i, x)
    programSize := min (Config.drawSize s.draws) s.params.codeCapacity
    data := (List.range s.params.dataSize).filterMap fun i =>
      if Config.drawData s.draws i = unlistedWord then none else some (i, Config.drawData s.draws i)
    changedDataIndex := Config.drawWord (s.draws + 2)
    loaded := false
    draws := s.draws + 3 }

/-- `load(imagePath)` (R212, R213): it starts with `clear()`; a missing file and an I/O error fail, each by
its own description (R212, R214). -/
def load (file : ImageFile) (s : State) : LoadStatus × State :=
  match file with
  | .missing => (.failure .missingFile, unloadedState (clear s))
  | .ioError => (.failure .ioError, unloadedState (clear s))
  | .bytes bs =>
    match loadImage (clear s) bs with
    | .ok t => (.success, t)
    | .error e => (.failure e, unloadedState (clear s))

end Sys2Proof.Machine
end

