-- ==== Sys2Proof/Machine/Run.lean ====
section
/-! DEFINITION. The outcome of a step in the spec's own three cases (R12), the end of a run (R211),
`execute` under fuel (R210), and what the caller is told of a fault (R180, R184). -/

namespace Sys2Proof.Machine

/-- The outcomes of R12, and the refusal of R100. -/
inductive StepOutcome where
  | continued (s : State)
  | halted (s : State)
  | fault (f : Fault)
  | refused (r : Refusal)
deriving DecidableEq, Repr

/-- The instruction the step would run is a HALT. -/
def atHalt (s : State) : Bool :=
  match fetchChecked s with
  | .ok i => i.mnemonic == .halt
  | .error _ => false

/-- The outcome of `step` as R12 names it: a next state is Halted exactly when HALT gave it (R122), else
Continue. No flag is stored (R31; log entry 4). -/
def stepOutcome (s : State) : StepOutcome :=
  match step s with
  | .next t => if atHalt s then .halted t else .continued t
  | .fault f => .fault f
  | .refused r => .refused r

/-- What the caller is told, in order (R184, R211). -/
inductive Notice where
  | haltNotification
  | faultSurfaced (f : Fault)
deriving DecidableEq, Repr

/-- What a step's outcome tells the caller of `step` or of `execute` (R184, R211): HALT and a fault give
the halt notification, a fault before it is surfaced. -/
def notices (o : StepOutcome) : List Notice :=
  match o with
  | .continued _ => []
  | .halted _ => [.haltNotification]
  | .fault f => [.haltNotification, .faultSurfaced f]
  | .refused _ => []

/-- How a run ended; `running` if the fuel ran out first. -/
inductive Ending where
  | halted
  | fault (f : Fault)
  | refused (r : Refusal)
  | running
deriving DecidableEq, Repr

/-- A run: its end, the state after its last step, and the notices in order. -/
structure Run where
  ending : Ending
  final : State
  notices : List Notice
deriving DecidableEq, Repr

/-- `execute()` under fuel (R210): step until Halted or a fault; a fault is not retried. The halt
notification comes once, and before the fault is surfaced (R184, R211); the state a fault leaves is the
state before the faulting step (R186). -/
def execute (fuel : Nat) (s : State) : Run :=
  match fuel with
  | 0 => { ending := .running, final := s, notices := [] }
  | n + 1 =>
    match stepOutcome s with
    | .continued t => execute n t
    | .halted t => { ending := .halted, final := t, notices := notices (.halted t) }
    | .fault f => { ending := .fault f, final := s, notices := notices (.fault f) }
    | .refused r => { ending := .refused r, final := s, notices := [] }

/-- The numeric fault codes of R180 (decision D28); they are labels. -/
def faultCode (f : Fault) : Nat :=
  match f with
  | .corruptInstruction _ _ => 1
  | .illegalInstruction _ _ _ => 2
  | .divideByZero _ => 3
  | .indexFault _ _ _ => 4

/-- The fault kind with a descriptive message, as surfaced to the caller (R180), at occurrence number
`n`, which the caller counts. The message text is a free value (log entry 9). -/
def faultReport (n : Nat) (f : Fault) : Nat × List Char := (faultCode f, Config.faultText n (faultCode f))

end Sys2Proof.Machine
end

