-- ==== Sys2Proof/Machine/HostInterface.lean ====
section
/-! DEFINITION. The host's calls between steps (R200 to R225): the accessors, `clear`, `load`, `step` and
`execute`, and what each replies. -/

namespace Sys2Proof.Machine

/-! ### Scalar accessors -/

/-- `getPC` and `getAccum` (R220). -/
def getPC (s : State) : Word := s.pc
def getAccum (s : State) : Word := s.acc

/-- `setPC` and `setAccum` write any Int32 and never fault (R220). -/
def setPC (s : State) (v : Word) : State := { s with pc := v }
def setAccum (s : State) (v : Word) : State := { s with acc := v }

/-- Scalar `getCode` (R222): an Instruction or empty, bounded by CODE_CAPACITY (decision D27). -/
def getCode (s : State) (i : Word) : Except Fault (Option Instr) :=
  if InCode s i then .ok (cellAt s i) else .error (.indexFault s.pc .code i)

/-- Scalar `setCode` (R222): it takes any Instruction record and does not change programSize. -/
def setCode (s : State) (i : Word) (x : Instr) : Except Fault State :=
  if InCode s i then .ok (putCell s i x) else .error (.indexFault s.pc .code i)

/-- `setProgramSize` (R223): refused outside 0..CODE_CAPACITY (decision D27). -/
def setProgramSize (s : State) (n : Int) : Except Refusal State :=
  if 0 ≤ n ∧ n ≤ (s.params.codeCapacity : Int) then .ok { s with programSize := n.toNat }
  else .error (.badProgramSize n)

/-! ### Ranged accessors (R221, R222): the whole range is checked first -/

/-- The indices of a range, exact, in ascending order. -/
def rangeOf (start : Word) (count : Nat) : List Int :=
  (List.range count).map fun (k : Nat) => start.toInt + (k : Int)

/-- An exact index lies in an array of the given size and is an Int32 (R10, R41). -/
def inRange (size : Nat) (i : Int) : Bool := decide (0 ≤ i ∧ i < (size : Int) ∧ i < 2 ^ 31)

/-- The first index of a range that is out of range, as the fault names it. DESIGN CHOICE (log entry 10):
which index is named, and that one past 2^31 - 1, which is no Int32 (R10), is recorded as its wrap32. -/
def firstOutside (size : Nat) (start : Word) (count : Nat) : Option Word :=
  ((rangeOf start count).find? fun i => !inRange size i).map wrap32

/-- Ranged `getData` (R221). -/
def getDataRange (s : State) (start : Word) (count : Nat) : Except Fault (List Word) :=
  match firstOutside s.params.dataSize start count with
  | some i => .error (.indexFault s.pc .data i)
  | none => .ok ((rangeOf start count).map fun i => wordAt s (wrap32 i))

/-- Write words one after the other, ascending. -/
def putWords (s : State) (i : Int) (vs : List Word) : State :=
  match vs with
  | [] => s
  | v :: r => putWords (putWord s (wrap32 i) v) (i + 1) r

/-- Ranged `setData` (R221): all or nothing; changedDataIndex ends as the last index written. -/
def setDataRange (s : State) (start : Word) (vs : List Word) : Except Fault State :=
  match firstOutside s.params.dataSize start vs.length with
  | some i => .error (.indexFault s.pc .data i)
  | none => .ok (putWords s start.toInt vs)

/-- Ranged `getCode` (R222). -/
def getCodeRange (s : State) (start : Word) (count : Nat) : Except Fault (List (Option Instr)) :=
  match firstOutside s.params.codeCapacity start count with
  | some i => .error (.indexFault s.pc .code i)
  | none => .ok ((rangeOf start count).map fun i => cellAt s (wrap32 i))

/-- Write code cells one after the other, ascending. -/
def putCells (s : State) (i : Int) (xs : List Instr) : State :=
  match xs with
  | [] => s
  | x :: r => putCells (putCell s (wrap32 i) x) (i + 1) r

/-- Ranged `setCode` (R222). -/
def setCodeRange (s : State) (start : Word) (xs : List Instr) : Except Fault State :=
  match firstOutside s.params.codeCapacity start xs.length with
  | some i => .error (.indexFault s.pc .code i)
  | none => .ok (putCells s start.toInt xs)

/-! ### The host's calls as data -/

/-- Everything the host can do to the machine between steps (R225). -/
inductive HostCall where
  | step
  | execute (fuel : Nat)
  | clear
  | load (file : ImageFile)
  | getPC
  | setPC (v : Word)
  | getAccum
  | setAccum (v : Word)
  | getData (i : Word)
  | setData (i v : Word)
  | getDataRange (start : Word) (count : Nat)
  | setDataRange (start : Word) (vs : List Word)
  | getCode (i : Word)
  | setCode (i : Word) (x : Instr)
  | getCodeRange (start : Word) (count : Nat)
  | setCodeRange (start : Word) (xs : List Instr)
  | getProgramSize
  | setProgramSize (n : Int)
  | getChangedDataIndex
deriving DecidableEq, Repr

/-- What a call returns (R225). -/
inductive HostReply where
  | done
  | continued
  | halted
  | fault (f : Fault)
  | refused (r : Refusal)
  | ran (e : Ending) (notices : List Notice)
  | loadStatus (st : LoadStatus)
  | word (w : Word)
  | words (ws : List Word)
  | cell (c : Option Instr)
  | cells (cs : List (Option Instr))
  | size (n : Nat)
deriving DecidableEq, Repr

/-- A checked read: its value, or the fault; the state stays. -/
def readReply {α : Type} (s : State) (r : Except Fault α) (k : α → HostReply) : HostReply × State :=
  match r with
  | .ok a => (k a, s)
  | .error f => (.fault f, s)

/-- A checked write: the new state, or the fault and the old state. -/
def writeReply (s : State) (r : Except Fault State) : HostReply × State :=
  match r with
  | .ok t => (.done, t)
  | .error f => (.fault f, s)

/-- The host's `step` call (R110, R186): on a fault or a refusal the state stays. -/
def hostStep (s : State) : HostReply × State :=
  match stepOutcome s with
  | .continued t => (.continued, t)
  | .halted t => (.halted, t)
  | .fault f => (.fault f, s)
  | .refused r => (.refused r, s)

/-- The host's `setProgramSize` call (R223). -/
def hostSetProgramSize (s : State) (n : Int) : HostReply × State :=
  match setProgramSize s n with
  | .ok t => (.done, t)
  | .error r => (.refused r, s)

/-- One call of the host: its reply and the state after it (R225). -/
def hostCall (c : HostCall) (s : State) : HostReply × State :=
  match c with
  | .step => hostStep s
  | .execute fuel => (.ran (execute fuel s).ending (execute fuel s).notices, (execute fuel s).final)
  | .clear => (.done, Sys2Proof.Machine.clear s)
  | .load file => (.loadStatus (Sys2Proof.Machine.load file s).1, (Sys2Proof.Machine.load file s).2)
  | .getPC => (.word (Sys2Proof.Machine.getPC s), s)
  | .setPC v => (.done, Sys2Proof.Machine.setPC s v)
  | .getAccum => (.word (Sys2Proof.Machine.getAccum s), s)
  | .setAccum v => (.done, Sys2Proof.Machine.setAccum s v)
  | .getData i => readReply s (dataRead s i) .word
  | .setData i v => writeReply s (dataWrite s i v)
  | .getDataRange a n => readReply s (Sys2Proof.Machine.getDataRange s a n) .words
  | .setDataRange a vs => writeReply s (Sys2Proof.Machine.setDataRange s a vs)
  | .getCode i => readReply s (Sys2Proof.Machine.getCode s i) .cell
  | .setCode i x => writeReply s (Sys2Proof.Machine.setCode s i x)
  | .getCodeRange a n => readReply s (Sys2Proof.Machine.getCodeRange s a n) .cells
  | .setCodeRange a xs => writeReply s (Sys2Proof.Machine.setCodeRange s a xs)
  | .getProgramSize => (.size s.programSize, s)
  | .setProgramSize n => hostSetProgramSize s n
  | .getChangedDataIndex => (.word s.changedDataIndex, s)

/-- A session of the host: its calls one after the other (R225). -/
def hostCalls (cs : List HostCall) (s : State) : State :=
  match cs with
  | [] => s
  | c :: r => hostCalls r (hostCall c s).2

end Sys2Proof.Machine
end

