-- ==== Sys2Proof/Safety.lean ====
section
/-! DEFINITION. The terms the statements use: the machine's invariant, what a run may end in, and the
spec's own reading of an operand. -/

namespace Sys2Proof.Machine

/-- The invariant of the machine: parameters as R7 asks, both arrays in their canonical form and inside
their bounds (R25, R28), programSize within CODE_CAPACITY (R27). -/
abbrev State.Inv (s : State) : Prop :=
  s.params.Valid ∧ Memory.wf s.params.dataSize s.data ∧ Code.wf s.params.codeCapacity s.code ∧
    s.programSize ≤ s.params.codeCapacity

/-- A good end of a run is HALT; a faulted run is never one (R211). -/
abbrev GoodEnd (r : Run) : Prop := r.ending = .halted

/-- A run that never ends (R210): it outlasts every fuel. -/
def RunsForever (s : State) : Prop := ∀ n, (execute n s).ending = .running

/-- `v` is the value operand of R106: data[arg], arg, or data[data[arg]], each read in range. -/
def Sourced (s : State) (mode : Mode) (arg v : Word) : Prop :=
  match mode with
  | .direct => Addressable s arg ∧ v = wordAt s arg
  | .immediate => v = arg
  | .indirect => Addressable s arg ∧ Addressable s (wordAt s arg) ∧ v = wordAt s (wordAt s arg)
  | .indirect2 => False

/-- `i` is the first index out of range among the reads of R106, the inner read first. -/
def SourceOutside (s : State) (mode : Mode) (arg i : Word) : Prop :=
  match mode with
  | .direct => ¬ Addressable s arg ∧ i = arg
  | .immediate => False
  | .indirect =>
    (¬ Addressable s arg ∧ i = arg) ∨
      (Addressable s arg ∧ ¬ Addressable s (wordAt s arg) ∧ i = wordAt s arg)
  | .indirect2 => False

/-- `t` is the jump target of R162. -/
def Target (s : State) (mode : Mode) (arg t : Word) : Prop :=
  match mode with
  | .direct => t = wrap32 (s.pc.toInt + arg.toInt)
  | .immediate => t = arg
  | .indirect => Addressable s arg ∧ t = wrap32 (s.pc.toInt + (wordAt s arg).toInt)
  | .indirect2 => Addressable s arg ∧ t = wordAt s arg

/-- What a step does with instruction `i` in the cell at the pc (R101, R102, R109, R186): the fetch is
checked, then the parity, and only then the handler runs; a step that faults leaves the host the state
before it. -/
def StepAt (s : State) (i : Instr) : Prop :=
  s.loaded = true → cellAt s s.pc = some i →
    (step s =
      if Fetchable s then
        if popcount (pack s.params i) % 2 = 0 then exec i s
        else .fault (.corruptInstruction s.pc (pack s.params i))
      else .fault (.indexFault s.pc .code s.pc)) ∧
    ∀ f, step s = .fault f → hostCall .step s = (.fault f, s)

end Sys2Proof.Machine
end

