-- ==== Sys2Proof/Certificates/Slice0/Obligations.lean ====
section
/-! DEFINITION. The statements for the provers: what the spec's rules say the machine does, over all
states, parameters and operands. `Continue` and `Halted` are both the host's `next` (log entry 4). Where
a pc goes past 2^31 - 1, `wrap32` is the spec's own decision D7. -/

open Sys2Proof Sys2Proof.Machine

/-! ### The codec -/

/-- R62: the opcode byte has the index, the mode and the parity bit in their places, the parity bit being
the popcount of the other two modulo 2, so its popcount is even; the Encoder, which packs the
instructions `parseCodeLine` reads, always computes it this way. -/
def Obligations.EncodedOpcodeHasEvenParity : Prop :=
  ∀ (p : Params) (m : Mnemonic) (mode : Mode), p.Valid →
    encodeOpcode p m mode =
        ((BitVec.ofNat 8 (p.index m) <<< 3) ||| (mode.bits.setWidth 8 <<< 1)) |||
          BitVec.ofNat 8 (popcount ((BitVec.ofNat 8 (p.index m) <<< 3) ||| (mode.bits.setWidth 8 <<< 1)) % 2) ∧
      popcount (encodeOpcode p m mode) % 2 = 0 ∧
      ∀ line i, parseCodeLine p line = some i → pack p i = encodeOpcode p i.mnemonic i.mode

/-- R60 and R67, whose bit 7 the spec derives: every field of a packed Instruction reads back from its
bits, for every numbering of the mnemonics. -/
def Obligations.PackedFieldsReadBack : Prop :=
  ∀ (p : Params) (i : Instr), p.Valid →
    (pack p i).getLsbD 7 = false ∧
      ((pack p i).extractLsb' 3 4).toNat = p.index i.mnemonic ∧
      (pack p i).extractLsb' 1 2 = i.mode.bits ∧
      (pack p i).getLsbD 0 = i.parity

/-- A sanity statement: words of every mnemonic, written out from R71 and R66 (default numbering, the
spec's decisions D1 and D2), decode to the instruction they stand for; the first byte is in bits 7..0. -/
def Obligations.SpecWordsDecode : Prop :=
  decodeTableWord 8 0x00 = some (.nop .direct false) ∧
    decodeTableWord 8 0x09 = some (.not .direct true) ∧
    decodeTableWord 8 0x11 = some (.halt .direct true) ∧
    decodeTableWord 40 0x050000001B = some (.lod .immediate true 5#32) ∧
    decodeTableWord 40 0x0300000024 = some (.sto .indirect false 3#32) ∧
    decodeTableWord 40 0xFFFFFFFF2D = some (.add .indirect true (-1)) ∧
    decodeTableWord 40 0x0000008033 = some (.sub .immediate true 0x80000000#32) ∧
    decodeTableWord 40 0x0000010039 = some (.mul .direct true 0x10000#32) ∧
    decodeTableWord 40 0xFEFFFFFF42 = some (.div .immediate false (-2)) ∧
    decodeTableWord 40 0x090000004B = some (.and .immediate true 9#32) ∧
    decodeTableWord 40 0xFF00000056 = some (.jump .indirect2 false 255#32) ∧
    decodeTableWord 40 0x070000005A = some (.jmpz .immediate false 7#32) ∧
    decodeTableWord 40 0x0400000060 = some (.cmpl .direct false 4#32) ∧
    decodeTableWord 40 0x0000000069 = some (.cmpz .direct true 0#32)

/-- R69, which the spec derives: decoding the bytes of any Instruction with even parity gives it back, with
every operand at every value, whatever bytes follow and whatever the numbering of the mnemonics. -/
def Obligations.DecodeOfEncode : Prop :=
  ∀ (p : Params) (i : Instr) (rest : List Byte), p.Valid → parityOk p i = true →
    decodeInstr p (encode p i ++ rest) = .ok i rest

/-- The other direction of the round trip (R66, R68, whose order of checks is the spec's decision): bytes
that decode to an instruction are that instruction's encoding, and its parity is even. -/
def Obligations.EncodeOfDecode : Prop :=
  ∀ (p : Params) (bytes : List Byte) (i : Instr) (rest : List Byte), p.Valid →
    decodeInstr p bytes = .ok i rest → encode p i ++ rest = bytes ∧ parityOk p i = true

/-- R68 and R72 (decisions D11 and D17): the verdict on each byte, class by class. -/
def Obligations.VerdictOfEveryByte : Prop :=
  ∀ (p : Params) (b : Byte), p.Valid →
    match decodeByte p b with
    | .sentinel => b.getLsbD 7 = true
    | .corrupt c => c = b ∧ b.getLsbD 7 = false ∧ popcount b % 2 = 1
    | .unknownMnemonic c =>
      c = b ∧ b.getLsbD 7 = false ∧ popcount b % 2 = 0 ∧ 14 ≤ (b.extractLsb' 3 4).toNat
    | .ok m mode parity =>
      b.getLsbD 7 = false ∧ popcount b % 2 = 0 ∧ p.index m = (b.extractLsb' 3 4).toNat ∧
        mode.bits = b.extractLsb' 1 2 ∧ parity = b.getLsbD 0

/-- R63, which the spec derives: any odd number of flips in bits 6:0 of a good opcode is detected, and no
even number is. -/
def Obligations.OddBitFlipsAreDetected : Prop :=
  ∀ (p : Params) (i : Instr) (flips : Byte), p.Valid → parityOk p i = true → flips.getLsbD 7 = false →
    (popcount flips % 2 = 1 → decodeByte p (pack p i ^^^ flips) = .corrupt (pack p i ^^^ flips)) ∧
      (popcount flips % 2 = 0 → decodeByte p (pack p i ^^^ flips) ≠ .corrupt (pack p i ^^^ flips))

/-- R70: the legal pairs are the 32 of the table and no other; another pair raises IllegalInstruction
when executed. -/
def Obligations.LegalPairsAreTheTable : Prop :=
  (∀ (m : Mnemonic) (mode : Mode), legalMode m mode = true ↔ (m, mode) ∈
    [(.nop, .direct), (.not, .direct), (.halt, .direct),
      (.lod, .direct), (.lod, .immediate), (.lod, .indirect), (.sto, .direct), (.sto, .indirect),
      (.add, .direct), (.add, .immediate), (.add, .indirect),
      (.sub, .direct), (.sub, .immediate), (.sub, .indirect),
      (.mul, .direct), (.mul, .immediate), (.mul, .indirect),
      (.div, .direct), (.div, .immediate), (.div, .indirect), (.and, .direct), (.and, .immediate),
      (.jump, .direct), (.jump, .immediate), (.jump, .indirect), (.jump, .indirect2),
      (.jmpz, .direct), (.jmpz, .immediate), (.jmpz, .indirect), (.jmpz, .indirect2),
      (.cmpl, .direct), (.cmpz, Mode.direct)]) ∧
    ∀ (s : State) (i : Instr), legalMode i.mnemonic i.mode = false →
      exec i s = .fault (.illegalInstruction s.pc i.mnemonic i.mode.bits)

/-! ### The data array -/

/-- R41: exactly the indices 0 <= i < DATA_SIZE are addressable, each names its own word and no other, and
an access to another index raises IndexFault. -/
def Obligations.DataAccessIsBoundsChecked : Prop :=
  ∀ (s : State) (i v : Word),
    (0 ≤ i.toInt → i.toInt < (s.params.dataSize : Int) →
      dataRead s i = .ok (wordAt s i) ∧
        ∃ t, dataWrite s i v = .ok t ∧ ∀ j, wordAt t j = if j = i then v else wordAt s j) ∧
    (i.toInt < 0 ∨ (s.params.dataSize : Int) ≤ i.toInt →
      dataRead s i = .error (.indexFault s.pc .data i) ∧ dataWrite s i v = .error (.indexFault s.pc .data i))

/-- R44: a data write in range sets the word and changedDataIndex and nothing else; one out of range only
faults. -/
def Obligations.DataWriteSetsWordAndIndex : Prop :=
  ∀ (s : State) (i v : Word),
    (Addressable s i → ∃ t, dataWrite s i v = .ok t ∧
      dataRead t i = .ok v ∧ t.changedDataIndex = i ∧ (∀ j, j ≠ i → wordAt t j = wordAt s j) ∧
      t.params = s.params ∧ t.acc = s.acc ∧ t.pc = s.pc ∧ t.code = s.code ∧
      t.programSize = s.programSize ∧ t.loaded = s.loaded ∧ t.draws = s.draws) ∧
    (¬ Addressable s i → dataWrite s i v = .error (.indexFault s.pc .data i))

/-! ### The instructions, each in all its forms

Each statement gives the whole outcome of `exec`, for every state, mode, parity bit and argument; what
the step does before and around it is `StepAt`, or the statements on the step below. -/

/-- R120. -/
def Obligations.NopAdvances : Prop :=
  ∀ (s : State) (mode : Mode) (p : Bool),
    exec (.nop .direct p) s = .next { s with pc := wrap32 (s.pc.toInt + 1) } ∧
      (mode ≠ .direct → exec (.nop mode p) s = .fault (.illegalInstruction s.pc .nop mode.bits)) ∧
      encodeOpcode Params.default .nop .direct = 0x00#8 ∧ Mnemonic.nop.lengthBytes = 1 ∧
      StepAt s (.nop mode p)

/-- R121. -/
def Obligations.NotNegatesLogically : Prop :=
  ∀ (s : State) (mode : Mode) (p : Bool),
    exec (.not .direct p) s =
        .next { s with acc := if s.acc = 0#32 then 1#32 else 0#32, pc := wrap32 (s.pc.toInt + 1) } ∧
      (mode ≠ .direct → exec (.not mode p) s = .fault (.illegalInstruction s.pc .not mode.bits)) ∧
      encodeOpcode Params.default .not .direct = 0x09#8 ∧ Mnemonic.not.lengthBytes = 1 ∧
      StepAt s (.not mode p)

/-- HALT (41_control_misc.md; that a later step repeats it is the spec's decision D13, and that Halted is
a next state told apart by `stepOutcome` is the model's choice, log entry 4): nothing changes, the
outcome is Halted, and a run ends there. -/
def Obligations.HaltStopsAndChangesNothing : Prop :=
  ∀ (s : State) (mode : Mode) (p : Bool),
    exec (.halt .direct p) s = .next s ∧
      (mode ≠ .direct → exec (.halt mode p) s = .fault (.illegalInstruction s.pc .halt mode.bits)) ∧
      (s.loaded = true → fetchChecked s = .ok (.halt .direct p) →
        stepOutcome s = .halted s ∧
          ∀ n, execute (n + 1) s = { ending := .halted, final := s, notices := [.haltNotification] })

/-- R130. -/
def Obligations.LodLoadsOperand : Prop :=
  ∀ (s : State) (mode : Mode) (p : Bool) (arg : Word),
    (∀ v, Sourced s mode arg v →
      exec (.lod mode p arg) s = .next { s with acc := v, pc := wrap32 (s.pc.toInt + 1) }) ∧
    (∀ i, SourceOutside s mode arg i → exec (.lod mode p arg) s = .fault (.indexFault s.pc .data i)) ∧
    (mode = .indirect2 → exec (.lod mode p arg) s = .fault (.illegalInstruction s.pc .lod mode.bits)) ∧
    encodeOpcode Params.default .lod .direct = 0x18#8 ∧ encodeOpcode Params.default .lod .immediate = 0x1B#8 ∧
    encodeOpcode Params.default .lod .indirect = 0x1D#8 ∧ encodeOpcode Params.default .lod .indirect2 = 0x1E#8 ∧
    encode s.params (.lod mode (parityFor (s.params.index .lod) mode) arg) =
      encodeOpcode s.params .lod mode :: argBytes arg ∧
    StepAt s (.lod mode p arg)

/-- R131: the address is arg, or data[arg]; the write sets the word there and changedDataIndex, and the
pc goes on; acc does not change. -/
def Obligations.StoStoresAccumulator : Prop :=
  ∀ (s : State) (mode : Mode) (p : Bool) (arg : Word),
    (∀ a, (mode = .direct ∧ a = arg) ∨ (mode = .indirect ∧ Addressable s arg ∧ a = wordAt s arg) →
      (Addressable s a → ∃ t, exec (.sto mode p arg) s = .next t ∧
        wordAt t a = s.acc ∧ (∀ j, j ≠ a → wordAt t j = wordAt s j) ∧ t.changedDataIndex = a ∧
        t.acc = s.acc ∧ t.pc = wrap32 (s.pc.toInt + 1)) ∧
      (¬ Addressable s a → exec (.sto mode p arg) s = .fault (.indexFault s.pc .data a))) ∧
    (mode = .indirect → ¬ Addressable s arg →
      exec (.sto mode p arg) s = .fault (.indexFault s.pc .data arg)) ∧
    (mode = .immediate ∨ mode = .indirect2 →
      exec (.sto mode p arg) s = .fault (.illegalInstruction s.pc .sto mode.bits)) ∧
    encodeOpcode Params.default .sto .direct = 0x21#8 ∧ encodeOpcode Params.default .sto .indirect = 0x24#8 ∧
    encodeOpcode Params.default .sto .immediate = 0x22#8 ∧ encodeOpcode Params.default .sto .indirect2 = 0x27#8 ∧
    encode s.params (.sto mode (parityFor (s.params.index .sto) mode) arg) =
      encodeOpcode s.params .sto mode :: argBytes arg ∧
    StepAt s (.sto mode p arg)

/-- ADD (43_arith_logic.md); the wrap of an overflowing sum is the spec's decision D5. -/
def Obligations.AddWrapsExactSum : Prop :=
  ∀ (s : State) (mode : Mode) (p : Bool) (arg : Word),
    (∀ v, Sourced s mode arg v → exec (.add mode p arg) s =
      .next { s with acc := wrap32 (s.acc.toInt + v.toInt), pc := wrap32 (s.pc.toInt + 1) }) ∧
    (∀ i, SourceOutside s mode arg i → exec (.add mode p arg) s = .fault (.indexFault s.pc .data i)) ∧
    (mode = .indirect2 → exec (.add mode p arg) s = .fault (.illegalInstruction s.pc .add mode.bits))

/-- SUB (43_arith_logic.md); the wrap is the spec's decision D5. -/
def Obligations.SubWrapsExactDifference : Prop :=
  ∀ (s : State) (mode : Mode) (p : Bool) (arg : Word),
    (∀ v, Sourced s mode arg v → exec (.sub mode p arg) s =
      .next { s with acc := wrap32 (s.acc.toInt - v.toInt), pc := wrap32 (s.pc.toInt + 1) }) ∧
    (∀ i, SourceOutside s mode arg i → exec (.sub mode p arg) s = .fault (.indexFault s.pc .data i)) ∧
    (mode = .indirect2 → exec (.sub mode p arg) s = .fault (.illegalInstruction s.pc .sub mode.bits))

/-- MUL (43_arith_logic.md); the wrap is the spec's decision D5: the low 32 bits of the product. -/
def Obligations.MulKeepsLowBits : Prop :=
  ∀ (s : State) (mode : Mode) (p : Bool) (arg : Word),
    (∀ v, Sourced s mode arg v → exec (.mul mode p arg) s =
      .next { s with acc := wrap32 (s.acc.toInt * v.toInt), pc := wrap32 (s.pc.toInt + 1) }) ∧
    (∀ i, SourceOutside s mode arg i → exec (.mul mode p arg) s = .fault (.indexFault s.pc .data i)) ∧
    (mode = .indirect2 → exec (.mul mode p arg) s = .fault (.illegalInstruction s.pc .mul mode.bits))

/-- DIV (43_arith_logic.md); truncation toward zero and the wrap of -2^31 / -1 are the spec's decision D6,
and reading the operand before the divisor test its decision D9. The quotient is stated by its own
property, so the division of the model is not assumed. -/
def Obligations.DivTruncatesTowardZero : Prop :=
  ∀ (s : State) (mode : Mode) (p : Bool) (arg : Word),
    (∀ v, Sourced s mode arg v → v ≠ 0#32 → ∃ q : Int,
      q.natAbs = s.acc.toInt.natAbs / v.toInt.natAbs ∧
      (0 ≤ s.acc.toInt * v.toInt → 0 ≤ q) ∧ (s.acc.toInt * v.toInt ≤ 0 → q ≤ 0) ∧
      exec (.div mode p arg) s = .next { s with acc := wrap32 q, pc := wrap32 (s.pc.toInt + 1) }) ∧
    (Sourced s mode arg 0#32 → exec (.div mode p arg) s = .fault (.divideByZero s.pc)) ∧
    (∀ i, SourceOutside s mode arg i → exec (.div mode p arg) s = .fault (.indexFault s.pc .data i)) ∧
    (mode = .indirect2 → exec (.div mode p arg) s = .fault (.illegalInstruction s.pc .div mode.bits))

/-- AND (43_arith_logic.md); routing the operand as for LOD and reading it even when acc = 0 is the spec's
decision D34. -/
def Obligations.AndIsLogical : Prop :=
  ∀ (s : State) (mode : Mode) (p : Bool) (arg : Word),
    (∀ v, mode = .direct ∨ mode = .immediate → Sourced s mode arg v → exec (.and mode p arg) s =
      .next { s with acc := if s.acc ≠ 0#32 ∧ v ≠ 0#32 then 1#32 else 0#32, pc := wrap32 (s.pc.toInt + 1) }) ∧
    (mode = .direct → ¬ Addressable s arg →
      exec (.and mode p arg) s = .fault (.indexFault s.pc .data arg)) ∧
    (mode = .indirect ∨ mode = .indirect2 →
      exec (.and mode p arg) s = .fault (.illegalInstruction s.pc .and mode.bits))

/-- JUMP (44_jumps.md); the wrap of a relative target is the spec's decision D7. -/
def Obligations.JumpGoesToTarget : Prop :=
  ∀ (s : State) (mode : Mode) (p : Bool) (arg : Word),
    (∀ t, Target s mode arg t → exec (.jump mode p arg) s = .next { s with pc := t }) ∧
    (mode = .indirect ∨ mode = .indirect2 → ¬ Addressable s arg →
      exec (.jump mode p arg) s = .fault (.indexFault s.pc .data arg))

/-- JMPZ (44_jumps.md); reading data[arg] when the jump is not taken is the spec's decision D10. -/
def Obligations.JmpzJumpsOnZero : Prop :=
  ∀ (s : State) (mode : Mode) (p : Bool) (arg : Word),
    (∀ t, Target s mode arg t → exec (.jmpz mode p arg) s =
      .next { s with pc := if s.acc = 0#32 then t else wrap32 (s.pc.toInt + 1) }) ∧
    (mode = .indirect ∨ mode = .indirect2 → ¬ Addressable s arg →
      exec (.jmpz mode p arg) s = .fault (.indexFault s.pc .data arg))

/-- R170. -/
def Obligations.CmplTestsNegative : Prop :=
  ∀ (s : State) (mode : Mode) (p : Bool) (arg : Word),
    (Addressable s arg → exec (.cmpl .direct p arg) s =
      .next { s with acc := if (wordAt s arg).toInt < 0 then 1#32 else 0#32, pc := wrap32 (s.pc.toInt + 1) }) ∧
    (¬ Addressable s arg → exec (.cmpl .direct p arg) s = .fault (.indexFault s.pc .data arg)) ∧
    (mode ≠ .direct → exec (.cmpl mode p arg) s = .fault (.illegalInstruction s.pc .cmpl mode.bits)) ∧
    encodeOpcode Params.default .cmpl .direct = 0x60#8 ∧ encodeOpcode Params.default .cmpl .immediate = 0x63#8 ∧
    encodeOpcode Params.default .cmpl .indirect = 0x65#8 ∧ encodeOpcode Params.default .cmpl .indirect2 = 0x66#8 ∧
    encode s.params (.cmpl mode (parityFor (s.params.index .cmpl) mode) arg) =
      encodeOpcode s.params .cmpl mode :: argBytes arg ∧
    StepAt s (.cmpl mode p arg)

/-- R171. -/
def Obligations.CmpzTestsZero : Prop :=
  ∀ (s : State) (mode : Mode) (p : Bool) (arg : Word),
    (Addressable s arg → exec (.cmpz .direct p arg) s =
      .next { s with acc := if wordAt s arg = 0#32 then 1#32 else 0#32, pc := wrap32 (s.pc.toInt + 1) }) ∧
    (¬ Addressable s arg → exec (.cmpz .direct p arg) s = .fault (.indexFault s.pc .data arg)) ∧
    (mode ≠ .direct → exec (.cmpz mode p arg) s = .fault (.illegalInstruction s.pc .cmpz mode.bits)) ∧
    encodeOpcode Params.default .cmpz .direct = 0x69#8 ∧ encodeOpcode Params.default .cmpz .immediate = 0x6A#8 ∧
    encodeOpcode Params.default .cmpz .indirect = 0x6C#8 ∧ encodeOpcode Params.default .cmpz .indirect2 = 0x6F#8 ∧
    encode s.params (.cmpz mode (parityFor (s.params.index .cmpz) mode) arg) =
      encodeOpcode s.params .cmpz mode :: argBytes arg ∧
    StepAt s (.cmpz mode p arg)

/-! ### The step: fetch, parity, mode, dispatch -/

/-- 40_step_dispatch.md (R110): a loaded machine whose pc names a full cell with even parity runs exactly
that instruction; the step adds nothing around it. -/
def Obligations.StepRunsFetchedInstruction : Prop :=
  ∀ (s : State) (i : Instr), s.loaded = true → 0 ≤ s.pc.toInt → s.pc.toInt < (s.programSize : Int) →
    s.pc.toInt < (s.params.codeCapacity : Int) → cellAt s s.pc = some i → parityOk s.params i = true →
    step s = exec i s

/-- R101 (kind and moment of the check are the spec's decision D8): each way a fetch can fail. -/
def Obligations.BadPcFaultsAtFetch : Prop :=
  ∀ (s : State), s.loaded = true →
    s.pc.toInt < 0 ∨ (s.programSize : Int) ≤ s.pc.toInt ∨ (s.params.codeCapacity : Int) ≤ s.pc.toInt ∨
      cellAt s s.pc = none →
    step s = .fault (.indexFault s.pc .code s.pc)

/-- R102: a fetched Instruction whose packed opcode has an odd popcount raises CorruptInstruction with pc
and opcode before dispatch, whatever its mode; one with an even popcount passes to its handler. -/
def Obligations.CorruptInstructionStopsBeforeDispatch : Prop :=
  ∀ (s : State) (i : Instr), s.loaded = true → codeFetch s = .ok i →
    (popcount (pack s.params i) % 2 = 1 →
      step s = .fault (.corruptInstruction s.pc (pack s.params i)) ∧
        hostCall .step s = (.fault (.corruptInstruction s.pc (pack s.params i)), s)) ∧
    (popcount (pack s.params i) % 2 = 0 → step s = exec i s)

/-- R104: an illegal pair raises IllegalInstruction naming the mnemonic and the mode bits, before any
operand is read and after the parity check; a legal pair never does. -/
def Obligations.IllegalModeTraps : Prop :=
  ∀ (s : State) (i : Instr),
    (legalMode i.mnemonic i.mode = false →
      exec i s = .fault (.illegalInstruction s.pc i.mnemonic i.mode.bits)) ∧
    (legalMode i.mnemonic i.mode = true → ∀ pc m b, exec i s ≠ .fault (.illegalInstruction pc m b)) ∧
    (legalMode i.mnemonic i.mode = false → s.loaded = true → codeFetch s = .ok i →
      step s = if popcount (pack s.params i) % 2 = 0 then
          .fault (.illegalInstruction s.pc i.mnemonic i.mode.bits)
        else .fault (.corruptInstruction s.pc (pack s.params i)))

/-- R100 and R214 (decision D16): a step of an unloaded machine is refused. -/
def Obligations.UnloadedStepIsRefused : Prop :=
  ∀ (s : State), s.loaded = false → step s = .refused .unloaded ∧ hostCall .step s = (.refused .unloaded, s)

/-- R180 and R182, which the spec derives: a handler always answers a next state or one of its own faults,
and each fault has its cause: the illegal mode; the divisor 0 that DIV sourced; the data index, which is
the argument or the word an INDIRECT operand read through it, out of range. The last two come only in a
legal mode. -/
def Obligations.FaultsOfEachInstruction : Prop :=
  ∀ (s : State) (i : Instr),
    match exec i s with
    | .next _ => legalMode i.mnemonic i.mode = true
    | .refused _ => False
    | .fault (.corruptInstruction _ _) => False
    | .fault (.illegalInstruction pc m b) =>
      pc = s.pc ∧ m = i.mnemonic ∧ b = i.mode.bits ∧ legalMode i.mnemonic i.mode = false
    | .fault (.divideByZero pc) =>
      pc = s.pc ∧ i.mnemonic = .div ∧ legalMode i.mnemonic i.mode = true ∧
        ∃ a, i.arg = some a ∧ Sourced s i.mode a 0#32
    | .fault (.indexFault pc space x) =>
      pc = s.pc ∧ space = .data ∧ ¬ Addressable s x ∧ legalMode i.mnemonic i.mode = true ∧
        i.mode ≠ .immediate ∧ (i.mode = .direct → i.mnemonic ≠ .jump ∧ i.mnemonic ≠ .jmpz) ∧
        ∃ a, i.arg = some a ∧
          (x = a ∨ (i.mode = .indirect ∧ i.mnemonic ≠ .jump ∧ i.mnemonic ≠ .jmpz ∧ Addressable s a ∧
            x = wordAt s a))

/-- R109 and R183 (the order is the spec's decision D9): fetch before parity, parity before mode, mode
before operands, operand reads before the divisor. -/
def Obligations.FirstFailingCheckDecides : Prop :=
  ∀ (s : State), s.loaded = true →
    (∀ f, codeFetch s = .error f → step s = .fault f) ∧
    (∀ i, codeFetch s = .ok i → parityOk s.params i = false →
      step s = .fault (.corruptInstruction s.pc (pack s.params i))) ∧
    (∀ i, codeFetch s = .ok i → parityOk s.params i = true → legalMode i.mnemonic i.mode = false →
      step s = .fault (.illegalInstruction s.pc i.mnemonic i.mode.bits)) ∧
    (∀ mode p arg x, codeFetch s = .ok (.div mode p arg) → parityOk s.params (.div mode p arg) = true →
      SourceOutside s mode arg x → step s = .fault (.indexFault s.pc .data x))

/-! ### Frames -/

/-- R21 and the handlers of NOT, LOD, ADD, SUB, MUL, DIV, AND, CMPL and CMPZ: they change only acc and pc;
no data word, no code cell, no other state. -/
def Obligations.AccumulatorWritersFrame : Prop :=
  ∀ (s t : State) (i : Instr),
    i.mnemonic ∈ [Mnemonic.not, .lod, .add, .sub, .mul, .div, .and, .cmpl, .cmpz] → exec i s = .next t →
    (∀ a, wordAt t a = wordAt s a) ∧ t.data = s.data ∧ t.changedDataIndex = s.changedDataIndex ∧
      t.code = s.code ∧ t.programSize = s.programSize ∧ t.loaded = s.loaded ∧ t.params = s.params ∧
      t.draws = s.draws ∧ t.pc = wrap32 (s.pc.toInt + 1)

/-- The handlers of NOP, HALT, JUMP and JMPZ change at most the pc. -/
def Obligations.ControlInstructionsFrame : Prop :=
  ∀ (s t : State) (i : Instr),
    i.mnemonic ∈ [Mnemonic.nop, .halt, .jump, .jmpz] → exec i s = .next t →
    t.acc = s.acc ∧ (∀ a, wordAt t a = wordAt s a) ∧ t.data = s.data ∧
      t.changedDataIndex = s.changedDataIndex ∧ t.code = s.code ∧ t.programSize = s.programSize ∧
      t.loaded = s.loaded ∧ t.params = s.params ∧ t.draws = s.draws

/-- STO changes one data word, changedDataIndex and the pc: every other word reads as before. -/
def Obligations.StoFrame : Prop :=
  ∀ (s t : State) (mode : Mode) (p : Bool) (arg : Word), exec (.sto mode p arg) s = .next t →
    (∀ a, storeAddress .sto mode arg s = .ok a → ∀ j, j ≠ a → wordAt t j = wordAt s j) ∧
      t.acc = s.acc ∧ t.code = s.code ∧ t.programSize = s.programSize ∧ t.loaded = s.loaded ∧
      t.params = s.params ∧ t.draws = s.draws

/-! ### Rules of the whole machine -/

/-- 10_state.md and 20_memory.md: no step writes the code array, programSize, the loaded bit or a
parameter, and none makes a free draw (the last two are the model's own fields, log entries 3 and 6). -/
def Obligations.NoStepWritesCode : Prop :=
  ∀ (s t : State), step s = .next t →
    t.code = s.code ∧ t.programSize = s.programSize ∧ t.loaded = s.loaded ∧ t.params = s.params ∧
      t.draws = s.draws

/-- 10_state.md: only STO writes the data array and changedDataIndex. -/
def Obligations.OnlyStoreWritesData : Prop :=
  ∀ (s t : State), step s = .next t → t.data ≠ s.data ∨ t.changedDataIndex ≠ s.changedDataIndex →
    ∃ mode p arg a, codeFetch s = .ok (.sto mode p arg) ∧ storeAddress .sto mode arg s = .ok a ∧
      t.changedDataIndex = a ∧ Addressable s a

/-- 10_state.md: the instructions that write the accumulator. -/
def Obligations.AccumulatorWriters : Prop :=
  ∀ (s t : State), step s = .next t → t.acc ≠ s.acc →
    ∃ i, codeFetch s = .ok i ∧ i.mnemonic ∈ [Mnemonic.not, .lod, .add, .sub, .mul, .div, .and, .cmpl, .cmpz]

/-- 10_state.md: no rule's outcome depends on changedDataIndex: two states that differ in it only step
alike, up to that field. It holds for every value of the field. -/
def Obligations.ChangedDataIndexIsNeverRead : Prop :=
  ∀ (s : State) (c : Word),
    match step s, step { s with changedDataIndex := c } with
    | .next t, .next u => u = { t with changedDataIndex := u.changedDataIndex } ∧
        (u.changedDataIndex = t.changedDataIndex ∨ u.changedDataIndex = c)
    | .fault f, .fault g => f = g
    | .refused r, .refused q => r = q
    | _, _ => False

/-! ### Invariants -/

/-- Reset meets the invariant (the sizes 16 and 64 are the model's choice, log entry 2). -/
def Obligations.ResetMeetsInvariant : Prop := State.reset.Inv

/-- From every state that meets the invariant, a step gives a state that meets it. -/
def Obligations.StepKeepsInvariant : Prop :=
  ∀ (s t : State), s.Inv → step s = .next t → t.Inv

/-- Every call of the host, a failed load and its free draws among them, keeps the invariant. -/
def Obligations.HostCallsKeepInvariant : Prop :=
  ∀ (c : HostCall) (s : State), s.Inv → (hostCall c s).2.Inv

/-- Every state a host can bring the machine to, from `clear()` under any parameters R7 allows. -/
def Obligations.EverySessionMeetsInvariant : Prop :=
  ∀ (p : Params) (n : Nat) (cs : List HostCall), p.Valid → (hostCalls cs (State.cleared p n)).Inv

/-! ### Runs -/

/-- A step's outcome is Halted exactly when the instruction fetched is a HALT in DIRECT mode, and then
the state is unchanged (41_control_misc.md; representation: log entry 4). -/
def Obligations.HaltedOnlyByHalt : Prop :=
  ∀ (s t : State), stepOutcome s = .halted t ↔
    (s.loaded = true ∧ (∃ p, fetchChecked s = .ok (.halt .direct p)) ∧ t = s)

/-- R184 and R211 (decisions D13 and D31): a run that ends gives the halt notification exactly once, and
before its fault is surfaced. -/
def Obligations.HaltNotifiedOnce : Prop :=
  ∀ (n : Nat) (s : State),
    (GoodEnd (execute n s) → (execute n s).notices = [.haltNotification]) ∧
    (∀ f, (execute n s).ending = .fault f → (execute n s).notices = [.haltNotification, .faultSurfaced f]) ∧
    ((execute n s).ending = .running → (execute n s).notices = [])

/-- R210: `execute` stops at the first terminal event: more fuel changes nothing after a run has ended. -/
def Obligations.EndedRunNeedsNoMoreFuel : Prop :=
  ∀ (n k : Nat) (s : State), (execute n s).ending ≠ .running → execute (n + k) s = execute n s

/-- R185 and R186, which the spec derives, and the loop of R210: a step that faults ends the run in the
state before that step, a step that continues goes on from its next state, and from the state a faulted
run leaves the same step faults the same again. -/
def Obligations.FaultedRunStaysAtFault : Prop :=
  ∀ (n : Nat) (s : State),
    (∀ f, step s = .fault f → (execute (n + 1) s).ending = .fault f ∧ (execute (n + 1) s).final = s) ∧
    (∀ t, stepOutcome s = .continued t → execute (n + 1) s = execute n t) ∧
    (∀ f, (execute n s).ending = .fault f →
      step (execute n s).final = .fault f ∧ hostCall .step (execute n s).final = (.fault f, (execute n s).final))

/-- R160 and R210: JUMP DIRECT with offset 0 jumps to itself, and the run never ends. -/
def Obligations.JumpToSelfRunsForever : Prop :=
  ∀ (s : State) (p : Bool), s.loaded = true → fetchChecked s = .ok (.jump .direct p 0#32) →
    step s = .next s ∧ RunsForever s

/-! ### Reset and loading -/

/-- R33: the state after `clear()`, from any state, and the state the model starts from: all zero and
empty, and loaded. Of changedDataIndex nothing is stated: it is a free draw. -/
def Obligations.ClearLeavesResetValues : Prop :=
  ∀ (s : State), ∀ t ∈ [clear s, State.reset], t.acc = 0#32 ∧ t.pc = 0#32 ∧ (∀ i, cellAt t i = none) ∧
    t.programSize = 0 ∧ (∀ i, wordAt t i = 0#32) ∧ t.loaded = true

/-- R213 (its start with `clear()` and its limits are the spec's decision D16): the image the Encoder
writes of a program and its data pairs loads, from any state, to exactly that program at pc 0, with
each data word at its last pair's value. -/
def Obligations.EncodedImageLoads : Prop :=
  ∀ (s : State) (is : List Instr) (ds : List (Word × Word)), s.params.Valid →
    (∀ i ∈ is, parityOk s.params i = true) → is.length ≤ s.params.codeCapacity →
    (∀ d ∈ ds, Addressable s d.1) →
    ∃ t, load (.bytes (encodeImage s.params is ds)) s = (.success, t) ∧
      (∀ k : Nat, cellGet k t.code = is[k]?) ∧ t.programSize = is.length ∧ t.acc = 0#32 ∧ t.pc = 0#32 ∧
      t.loaded = true ∧ t.params = s.params ∧
      (∀ j, wordAt t j = ((ds.reverse.find? fun d => d.1 == j).map Prod.snd).getD 0#32) ∧
      (∀ d, ds.getLast? = some d → t.changedDataIndex = d.1)

/-- R213 and R214 (decision D16): an opcode with odd parity, one that names no mnemonic, or a missing
sentinel, after any program that fits, fails the load. -/
def Obligations.BadCodeSegmentFailsLoad : Prop :=
  ∀ (s : State) (is : List Instr) (b : Byte) (rest : List Byte), s.params.Valid →
    (∀ i ∈ is, parityOk s.params i = true) → is.length ≤ s.params.codeCapacity →
    (decodeByte s.params b = .corrupt b →
      (load (.bytes (encodeCode s.params is ++ b :: rest)) s).1 = .failure (.corruptInstruction b)) ∧
    (decodeByte s.params b = .unknownMnemonic b →
      (load (.bytes (encodeCode s.params is ++ b :: rest)) s).1 = .failure (.unknownMnemonic b)) ∧
    (load (.bytes (encodeCode s.params is)) s).1 = .failure .noSentinel

/-- R212 and R214 (decision D16): a missing file and an I/O error each fail the load by name; after any
failed load, `loaded` is 0 and a step is refused until `clear()`. -/
def Obligations.FailedLoadRefusesSteps : Prop :=
  ∀ (s : State) (file : ImageFile),
    (file = .missing → (load file s).1 = .failure .missingFile) ∧
    (file = .ioError → (load file s).1 = .failure .ioError) ∧
    (∀ e, (load file s).1 = .failure e →
      (load file s).2.loaded = false ∧ step (load file s).2 = .refused .unloaded ∧
        step (clear (load file s).2) = .fault (.indexFault 0#32 .code 0#32))

/-! ### The host's accessors -/

/-- R220, R223 and R224 (decision D27): the register accessors. -/
def Obligations.RegisterAccessors : Prop :=
  ∀ (s : State) (v : Word) (n : Int),
    hostCall .getPC (hostCall (.setPC v) s).2 = (.word v, { s with pc := v }) ∧
    hostCall .getAccum (hostCall (.setAccum v) s).2 = (.word v, { s with acc := v }) ∧
    (0 ≤ n → n ≤ (s.params.codeCapacity : Int) →
      hostCall .getProgramSize (hostCall (.setProgramSize n) s).2 =
        (.size n.toNat, { s with programSize := n.toNat })) ∧
    (n < 0 ∨ (s.params.codeCapacity : Int) < n →
      hostCall (.setProgramSize n) s = (.refused (.badProgramSize n), s)) ∧
    hostCall .getChangedDataIndex s = (.word s.changedDataIndex, s)

/-- R221 (decision D27): a ranged data write is all or nothing; its words read back, the others stay, and
changedDataIndex is the last index written. -/
def Obligations.RangedDataWriteIsAllOrNothing : Prop :=
  ∀ (s : State) (start : Word) (vs : List Word),
    ((∀ k : Nat, k < vs.length → inRange s.params.dataSize (start.toInt + (k : Int)) = true) →
      ∃ t, hostCall (.setDataRange start vs) s = (.done, t) ∧
        (∀ (k : Nat) (v : Word), vs[k]? = some v → wordAt t (wrap32 (start.toInt + (k : Int))) = v) ∧
        (∀ j : Word, (∀ k : Nat, k < vs.length → j ≠ wrap32 (start.toInt + (k : Int))) → wordAt t j = wordAt s j) ∧
        (vs ≠ [] → t.changedDataIndex = wrap32 (start.toInt + (vs.length : Int) - 1)) ∧
        hostCall (.getDataRange start vs.length) t = (.words vs, t)) ∧
    ((∃ k : Nat, k < vs.length ∧ inRange s.params.dataSize (start.toInt + (k : Int)) = false) →
      ∃ i, hostCall (.setDataRange start vs) s = (.fault (.indexFault s.pc .data i), s))

/-- R222 and R54 (the bound is the spec's decision D27): `setCode` stores any record, reads back, leaves
programSize and the other cells alone, and the next fetch sees it. -/
def Obligations.SetCodeIsSeenByFetch : Prop :=
  ∀ (s : State) (i : Word) (x : Instr),
    (InCode s i → ∃ t, hostCall (.setCode i x) s = (.done, t) ∧
      hostCall (.getCode i) t = (.cell (some x), t) ∧ t.programSize = s.programSize ∧
      (∀ j, j ≠ i → cellAt t j = cellAt s j) ∧
      (s.pc = i → Fetchable s → codeFetch t = .ok x)) ∧
    (¬ InCode s i → hostCall (.setCode i x) s = (.fault (.indexFault s.pc .code i), s))

/-! ### Renderings and the assembler -/

/-- R79 (decision D20): the hex rendering of every Int32 parses back to it. -/
def Obligations.HexRenderingParsesBack : Prop := ∀ v : Word, parseHex (renderHex v) = some v

/-- The round trip of 95_test_vectors.md L1-10, over R77, R81, R85 and R86, on the spec's own decisions
(log entry 11, PRESUMED): D20 gives the text form and the negative hex, D21 reads signed hex literals, and
D22 lets an illegal mode assemble. The text forms of a program of good parity, whose zero-argument
instructions are in DIRECT mode, assemble without a diagnostic to the program's own image, whatever valid
separator keyword is set. -/
def Obligations.RenderedProgramAssembles : Prop :=
  ∀ (p : Params) (kw : List Char) (is : List Instr), p.Valid → validKeyword kw = true →
    (∀ i ∈ is, parityOk p i = true ∧ (i.arg = none → i.mode = .direct)) →
    assemble p kw true (is.map renderText) = .image (encodeImage p is [])

/-- R85 (decisions D22 to D26): diagnostics come one per line, ascending; the status is the smallest
flagged line, which is never 0, and 0 exactly for an image. -/
def Obligations.StatusIsSmallestFlaggedLine : Prop :=
  ∀ (p : Params) (kw : List Char) (lines : List (List Char)),
    (validate kw lines).Pairwise (fun a b => a.1 < b.1) ∧
    (∀ d r, validate kw lines = d :: r →
      assemble p kw true lines = .diagnostics (d :: r) ∧
        assembleStatus (assemble p kw true lines) = some d.1 ∧ 1 ≤ d.1) ∧
    (validate kw lines = [] → assembleStatus (assemble p kw true lines) = some 0)
end

