-- ==== Sys2Proof/Laws/State.lean ====
section
/-! SUPPORT. Field lemmas of the named state updates: one per field per update, true by definition. -/

namespace Sys2Proof.Machine

variable (s : State) (p : Params) (n : Nat) (i v : Word) (x : Instr)

@[simp] theorem cleared_params : (State.cleared p n).params = p := rfl
@[simp] theorem cleared_acc : (State.cleared p n).acc = 0#32 := rfl
@[simp] theorem cleared_pc : (State.cleared p n).pc = 0#32 := rfl
@[simp] theorem cleared_code : (State.cleared p n).code = [] := rfl
@[simp] theorem cleared_programSize : (State.cleared p n).programSize = 0 := rfl
@[simp] theorem cleared_data : (State.cleared p n).data = [] := rfl
@[simp] theorem cleared_loaded : (State.cleared p n).loaded = true := rfl
@[simp] theorem cleared_draws : (State.cleared p n).draws = n + 1 := rfl

theorem reset_eq_cleared : State.reset = State.cleared Params.default 0 := rfl
theorem clear_eq_cleared : clear s = State.cleared s.params s.draws := rfl

@[simp] theorem putWord_params : (putWord s i v).params = s.params := rfl
@[simp] theorem putWord_acc : (putWord s i v).acc = s.acc := rfl
@[simp] theorem putWord_pc : (putWord s i v).pc = s.pc := rfl
@[simp] theorem putWord_code : (putWord s i v).code = s.code := rfl
@[simp] theorem putWord_programSize : (putWord s i v).programSize = s.programSize := rfl
@[simp] theorem putWord_data : (putWord s i v).data = setWord i v s.data := rfl
@[simp] theorem putWord_changedDataIndex : (putWord s i v).changedDataIndex = i := rfl
@[simp] theorem putWord_loaded : (putWord s i v).loaded = s.loaded := rfl
@[simp] theorem putWord_draws : (putWord s i v).draws = s.draws := rfl

@[simp] theorem putCell_params : (putCell s i x).params = s.params := rfl
@[simp] theorem putCell_acc : (putCell s i x).acc = s.acc := rfl
@[simp] theorem putCell_pc : (putCell s i x).pc = s.pc := rfl
@[simp] theorem putCell_code : (putCell s i x).code = cellPut i.toNat (some x) s.code := rfl
@[simp] theorem putCell_programSize : (putCell s i x).programSize = s.programSize := rfl
@[simp] theorem putCell_data : (putCell s i x).data = s.data := rfl
@[simp] theorem putCell_changedDataIndex : (putCell s i x).changedDataIndex = s.changedDataIndex := rfl
@[simp] theorem putCell_loaded : (putCell s i x).loaded = s.loaded := rfl
@[simp] theorem putCell_draws : (putCell s i x).draws = s.draws := rfl

end Sys2Proof.Machine
end

