-- ==== Sys2Proof/Laws/Cells.lean ====
section
/-! SUPPORT. The sparse arrays: read after write, frame, and that every operation keeps the canonical
form. -/

namespace Sys2Proof.Machine

variable {α : Type}

@[simp] theorem cellGet_nil (k : Nat) : cellGet k ([] : List (Nat × α)) = none := rfl

theorem cellGet_cellSet (k j : Nat) (a : α) (c : List (Nat × α)) :
    cellGet j (cellSet k a c) = if k = j then some a else cellGet j c := by
  induction c with
  | nil => simp [cellSet, cellGet]
  | cons e r ih =>
    by_cases h1 : k < e.1
    · simp [cellSet, h1, cellGet]
    · by_cases h2 : e.1 = k
      · by_cases h3 : k = j <;> simp_all [cellSet, cellGet]
      · have hset : cellSet k a (e :: r) = e :: cellSet k a r := by simp [cellSet, h1, h2]
        rw [hset]
        by_cases h3 : e.1 = j
        · have h4 : ¬ k = j := fun h => h2 (h3.trans h.symm)
          simp [cellGet, h3, h4]
        · simp [cellGet, h3, ih]

theorem cellGet_cellErase (k j : Nat) (c : List (Nat × α)) :
    cellGet j (cellErase k c) = if k = j then none else cellGet j c := by
  induction c with
  | nil => simp [cellErase, cellGet]
  | cons e r ih =>
    unfold cellErase at ih ⊢
    by_cases h : e.1 = k
    · rw [List.filter_cons_of_neg (by simp [h]), ih]
      by_cases h3 : k = j
      · simp [h3]
      · simp [h3, cellGet, h]
    · rw [List.filter_cons_of_pos (by simp [h])]
      unfold cellGet
      by_cases h3 : e.1 = j
      · have : k ≠ j := fun h' => h (h3.trans h'.symm)
        simp [h3, this]
      · simp only [h3, if_false]
        exact ih

/-- Read after write, and the frame, on every list. -/
theorem cellGet_cellPut (k j : Nat) (v : Option α) (c : List (Nat × α)) :
    cellGet j (cellPut k v c) = if k = j then v else cellGet j c := by
  cases v with
  | none => exact cellGet_cellErase k j c
  | some a => exact cellGet_cellSet k j a c

/-- Every entry after a write was there before, or is the one written. -/
theorem mem_cellSet {k : Nat} {a : α} {c : List (Nat × α)} {e : Nat × α} (h : e ∈ cellSet k a c) :
    e = (k, a) ∨ e ∈ c := by
  induction c with
  | nil => exact .inl (by simpa [cellSet] using h)
  | cons e' r ih =>
    unfold cellSet at h
    split_ifs at h with h1 h2
    · simpa using h
    · rcases List.mem_cons.1 h with h | h
      · exact .inl h
      · exact .inr (List.mem_cons_of_mem _ h)
    · rcases List.mem_cons.1 h with h | h
      · exact .inr (by simp [h])
      · exact (ih h).imp_right (List.mem_cons_of_mem _)

theorem mem_cellPut {k : Nat} {v : Option α} {c : List (Nat × α)} {e : Nat × α} (h : e ∈ cellPut k v c) :
    (e.1 = k ∧ v = some e.2) ∨ e ∈ c := by
  cases v with
  | none => exact .inr (List.mem_of_mem_filter h)
  | some a =>
    rcases mem_cellSet h with h | h
    · exact .inl (by simp [h])
    · exact .inr h

theorem cellSet_ordered {k : Nat} {a : α} {c : List (Nat × α)} (h : Ordered c) : Ordered (cellSet k a c) := by
  induction c with
  | nil => simp [cellSet]
  | cons e r ih =>
    obtain ⟨he, hr⟩ := List.pairwise_cons.1 h
    unfold cellSet
    split_ifs with h1 h2
    · refine List.pairwise_cons.2 ⟨fun b hb => ?_, h⟩
      rcases List.mem_cons.1 hb with rfl | hb
      · exact h1
      · exact h1.trans (he b hb)
    · exact List.pairwise_cons.2 ⟨fun b hb => h2 ▸ he b hb, hr⟩
    · refine List.pairwise_cons.2 ⟨fun b hb => ?_, ih hr⟩
      rcases mem_cellSet hb with rfl | hb
      · exact lt_of_le_of_ne (not_lt.1 h1) h2
      · exact he b hb

theorem cellPut_ordered {k : Nat} {v : Option α} {c : List (Nat × α)} (h : Ordered c) :
    Ordered (cellPut k v c) := by
  cases v with
  | none => exact h.filter _
  | some a => exact cellSet_ordered h

/-- The canonical form of the data array is kept by every write inside it. -/
theorem setWord_wf {size : Nat} {i v : Word} {m : List (Nat × Word)} (h : Memory.wf size m)
    (hi : i.toNat < size) : Memory.wf size (setWord i v m) := by
  refine ⟨cellPut_ordered h.1, fun e he => ?_⟩
  rcases mem_cellPut he with ⟨h1, h2⟩ | he
  · split_ifs at h2 with hv
    cases h2
    exact ⟨h1 ▸ hi, hv⟩
  · exact h.2 e he

/-- The canonical form of the code array is kept by every write inside it. -/
theorem cellPut_code_wf {capacity k : Nat} {v : Option Instr} {c : List (Nat × Instr)}
    (h : Code.wf capacity c) (hk : k < capacity) : Code.wf capacity (cellPut k v c) := by
  refine ⟨cellPut_ordered h.1, fun e he => ?_⟩
  rcases mem_cellPut he with ⟨h1, -⟩ | he
  · exact h1 ▸ hk
  · exact h.2 e he

theorem memory_nil_wf (size : Nat) : Memory.wf size [] := ⟨List.Pairwise.nil, by simp⟩

theorem code_nil_wf (capacity : Nat) : Code.wf capacity [] := ⟨List.Pairwise.nil, by simp⟩

end Sys2Proof.Machine
end

