-- ==== Sys2Proof/Laws/Codec.lean ====
section
/-! SUPPORT. The codec: the numbering of the mnemonics is a bijection onto 0..13, and the fields of a packed
byte read back. -/

namespace Sys2Proof

theorem mem_all (m : Mnemonic) : m ∈ Mnemonic.all := by cases m <;> decide

theorem order_nodup {p : Params} (h : p.Valid) : p.mnemonicOrder.Nodup :=
  h.2.2.nodup_iff.2 (by decide)

theorem mem_order {p : Params} (h : p.Valid) (m : Mnemonic) : m ∈ p.mnemonicOrder :=
  h.2.2.mem_iff.2 (mem_all m)

theorem order_length {p : Params} (h : p.Valid) : p.mnemonicOrder.length = 14 :=
  h.2.2.length_eq

/-- Every index is in 0..13 (R60). -/
theorem index_lt {p : Params} (h : p.Valid) (m : Mnemonic) : p.index m < 14 :=
  order_length h ▸ List.idxOf_lt_length_of_mem (mem_order h m)

theorem mnemonicAt_index {p : Params} (h : p.Valid) (m : Mnemonic) :
    p.mnemonicAt (p.index m) = some m := by
  unfold Params.mnemonicAt Params.index
  rw [List.getElem?_eq_getElem (List.idxOf_lt_length_of_mem (mem_order h m))]
  simp

theorem index_of_mnemonicAt {p : Params} (h : p.Valid) {k : Nat} {m : Mnemonic}
    (hk : p.mnemonicAt k = some m) : p.index m = k := by
  obtain ⟨hlt, rfl⟩ := List.getElem?_eq_some_iff.1 hk
  exact (order_nodup h).idxOf_getElem k hlt

theorem ofBits_bits (mode : Mode) : Mode.ofBits mode.bits = mode := by cases mode <;> decide

theorem bits_ofBits (b : BitVec 2) : (Mode.ofBits b).bits = b := by
  revert b
  decide

/-- The record of an instruction's own fields is the instruction. -/
theorem ofFields_self (i : Instr) :
    Instr.ofFields i.mnemonic i.mode i.parity (i.arg.getD 0#32) = i := by
  cases i <;> rfl

theorem mnemonic_ofFields (m : Mnemonic) (mode : Mode) (b : Bool) (a : Word) :
    (Instr.ofFields m mode b a).mnemonic = m := by
  cases m <;> rfl

theorem mode_ofFields (m : Mnemonic) (mode : Mode) (b : Bool) (a : Word) :
    (Instr.ofFields m mode b a).mode = mode := by
  cases m <;> rfl

theorem parity_ofFields (m : Mnemonic) (mode : Mode) (b : Bool) (a : Word) :
    (Instr.ofFields m mode b a).parity = b := by
  cases m <;> rfl

theorem arg_ofFields (m : Mnemonic) (mode : Mode) (b : Bool) (a : Word) :
    (Instr.ofFields m mode b a).arg = if m.takesArg then some a else none := by
  cases m <;> rfl

/-- An instruction has an argument exactly if its mnemonic takes one (R26, R64). -/
theorem arg_isSome (i : Instr) : i.arg.isSome = i.mnemonic.takesArg := by cases i <;> rfl

/-- The fields of a packed byte read back, for every index a mnemonic can have. -/
theorem packFields_fields : ∀ (idx : Fin 16) (code : BitVec 2) (b : Bool),
    (packFields idx.val (Mode.ofBits code) b).getLsbD 7 = false ∧
      ((packFields idx.val (Mode.ofBits code) b).extractLsb' 3 4).toNat = idx.val ∧
      (packFields idx.val (Mode.ofBits code) b).extractLsb' 1 2 = code ∧
      (packFields idx.val (Mode.ofBits code) b).getLsbD 0 = b := by
  decide

/-- A byte whose bit 7 is clear is the packing of its own fields. -/
theorem packFields_of_byte : ∀ b : Byte, b.getLsbD 7 = false →
    packFields (b.extractLsb' 3 4).toNat (Mode.ofBits (b.extractLsb' 1 2)) (b.getLsbD 0) = b := by
  decide +kernel

/-- The parity bit `parityFor` gives is the one bit that makes the packed byte's popcount even. -/
theorem popcount_packFields : ∀ (idx : Fin 16) (code : BitVec 2) (b : Bool),
    (popcount (packFields idx.val (Mode.ofBits code) b) % 2 == 0) =
      (b == parityFor idx.val (Mode.ofBits code)) := by
  decide

/-- The four bytes of an argument give the argument back. -/
theorem argOfBytes_argBytes (a : Word) :
    argOfBytes (a.extractLsb' 24 8) (a.extractLsb' 16 8) (a.extractLsb' 8 8) (a.extractLsb' 0 8) = a := by
  apply BitVec.eq_of_getLsbD_eq
  intro i hi
  simp only [argOfBytes, BitVec.getLsbD_append, BitVec.getLsbD_extractLsb']
  split_ifs with h1 h2 h3
  · simp [h1]
  · simp only [h2, decide_true, Bool.true_and]
    congr 1
    omega
  · simp only [h3, decide_true, Bool.true_and]
    congr 1
    omega
  · have h4 : i - 8 - 8 - 8 < 8 := by omega
    simp only [h4, decide_true, Bool.true_and]
    congr 1
    omega

/-- The argument of four bytes gives the bytes back. -/
theorem argBytes_argOfBytes (b0 b1 b2 b3 : Byte) :
    argBytes (argOfBytes b0 b1 b2 b3) = [b0, b1, b2, b3] := by
  have h0 : (argOfBytes b0 b1 b2 b3).extractLsb' 24 8 = b0 := by
    apply BitVec.eq_of_getLsbD_eq
    intro i hi
    simp only [argOfBytes, BitVec.getLsbD_append, BitVec.getLsbD_extractLsb', hi, decide_true, Bool.true_and]
    rw [if_neg (by omega), if_neg (by omega), if_neg (by omega)]
    congr 1
    omega
  have h1 : (argOfBytes b0 b1 b2 b3).extractLsb' 16 8 = b1 := by
    apply BitVec.eq_of_getLsbD_eq
    intro i hi
    simp only [argOfBytes, BitVec.getLsbD_append, BitVec.getLsbD_extractLsb', hi, decide_true, Bool.true_and]
    rw [if_neg (by omega), if_neg (by omega), if_pos (by omega)]
    congr 1
    omega
  have h2 : (argOfBytes b0 b1 b2 b3).extractLsb' 8 8 = b2 := by
    apply BitVec.eq_of_getLsbD_eq
    intro i hi
    simp only [argOfBytes, BitVec.getLsbD_append, BitVec.getLsbD_extractLsb', hi, decide_true, Bool.true_and]
    rw [if_neg (by omega), if_pos (by omega)]
    congr 1
    omega
  have h3 : (argOfBytes b0 b1 b2 b3).extractLsb' 0 8 = b3 := by
    apply BitVec.eq_of_getLsbD_eq
    intro i hi
    simp only [argOfBytes, BitVec.getLsbD_append, BitVec.getLsbD_extractLsb', hi, decide_true, Bool.true_and]
    rw [if_pos (by omega)]
    congr 1
    omega
  unfold argBytes
  rw [h0, h1, h2, h3]

end Sys2Proof
end

