-- ==== Sys2Proof/Laws/Ops.lean ====
section
/-! SUPPORT. One lemma per shared operation that says everything it can do; proofs cite these and do not
unfold the operations. -/

namespace Sys2Proof.Machine

/-! ### Words and cells -/

/-- A word after a write: the value written there, and every other word as before. -/
theorem wordAt_putWord (s : State) (i v j : Word) :
    wordAt (putWord s i v) j = if i = j then v else wordAt s j := by
  unfold wordAt
  rw [putWord_data]
  unfold setWord
  rw [cellGet_cellPut]
  by_cases h : i = j
  · subst h
    by_cases hv : v = unlistedWord <;> simp [hv]
  · have h' : ¬ i.toNat = j.toNat := fun h' => h (BitVec.eq_of_toNat_eq h')
    rw [if_neg h', if_neg h]

/-- A cell after a write: the instruction written there, and every other cell as before. -/
theorem cellAt_putCell (s : State) (i : Word) (x : Instr) (j : Word) :
    cellAt (putCell s i x) j = if i = j then some x else cellAt s j := by
  unfold cellAt
  rw [putCell_code, cellGet_cellPut]
  by_cases h : i = j
  · simp [h]
  · have h' : ¬ i.toNat = j.toNat := fun h' => h (BitVec.eq_of_toNat_eq h')
    rw [if_neg h', if_neg h]

/-- A non-negative index below a bound, as a natural number. -/
theorem toNat_lt_of_toInt {i : Word} {n : Nat} (h0 : 0 ≤ i.toInt) (h : i.toInt < (n : Int)) : i.toNat < n := by
  have h1 := BitVec.toInt_eq_toNat_cond i
  have h2 := i.isLt
  by_cases h3 : 2 * i.toNat < 2 ^ 32
  · rw [if_pos h3] at h1
    omega
  · rw [if_neg h3] at h1
    omega

/-! ### Checked accesses -/

theorem dataRead_ok (s : State) (i v : Word) :
    dataRead s i = .ok v ↔ Addressable s i ∧ v = wordAt s i := by
  unfold dataRead
  by_cases h : Addressable s i
  · rw [if_pos h]
    exact ⟨fun e => ⟨h, (Except.ok.inj e).symm⟩, fun e => e.2 ▸ rfl⟩
  · rw [if_neg h]
    exact ⟨nofun, fun e => absurd e.1 h⟩

theorem dataRead_error (s : State) (i : Word) (f : Fault) :
    dataRead s i = .error f ↔ ¬ Addressable s i ∧ f = .indexFault s.pc .data i := by
  unfold dataRead
  by_cases h : Addressable s i
  · rw [if_pos h]
    exact ⟨nofun, fun e => absurd h e.1⟩
  · rw [if_neg h]
    exact ⟨fun e => ⟨h, (Except.error.inj e).symm⟩, fun e => e.2 ▸ rfl⟩

theorem dataWrite_ok (s : State) (i v : Word) (t : State) :
    dataWrite s i v = .ok t ↔ Addressable s i ∧ t = putWord s i v := by
  unfold dataWrite
  by_cases h : Addressable s i
  · rw [if_pos h]
    exact ⟨fun e => ⟨h, (Except.ok.inj e).symm⟩, fun e => e.2 ▸ rfl⟩
  · rw [if_neg h]
    exact ⟨nofun, fun e => absurd e.1 h⟩

theorem dataWrite_error (s : State) (i v : Word) (f : Fault) :
    dataWrite s i v = .error f ↔ ¬ Addressable s i ∧ f = .indexFault s.pc .data i := by
  unfold dataWrite
  by_cases h : Addressable s i
  · rw [if_pos h]
    exact ⟨nofun, fun e => absurd h e.1⟩
  · rw [if_neg h]
    exact ⟨fun e => ⟨h, (Except.error.inj e).symm⟩, fun e => e.2 ▸ rfl⟩

theorem codeFetch_ok (s : State) (i : Instr) :
    codeFetch s = .ok i ↔ Fetchable s ∧ cellAt s s.pc = some i := by
  unfold codeFetch
  by_cases h : Fetchable s
  · rw [if_pos h]
    cases hc : cellAt s s.pc with
    | none => exact ⟨nofun, fun e => nomatch e.2⟩
    | some x => exact ⟨fun e => ⟨h, congrArg some (Except.ok.inj e)⟩, fun e => congrArg _ (Option.some.inj e.2)⟩
  · rw [if_neg h]
    exact ⟨nofun, fun e => absurd e.1 h⟩

theorem codeFetch_error (s : State) (f : Fault) :
    codeFetch s = .error f ↔
      (¬ Fetchable s ∨ cellAt s s.pc = none) ∧ f = .indexFault s.pc .code s.pc := by
  unfold codeFetch
  by_cases h : Fetchable s
  · rw [if_pos h]
    cases hc : cellAt s s.pc with
    | none => exact ⟨fun e => ⟨.inr rfl, (Except.error.inj e).symm⟩, fun e => e.2 ▸ rfl⟩
    | some x => exact ⟨nofun, fun e => e.1.elim (absurd h) nofun⟩
  · rw [if_neg h]
    exact ⟨fun e => ⟨.inl h, (Except.error.inj e).symm⟩, fun e => e.2 ▸ rfl⟩

theorem fetchChecked_ok (s : State) (i : Instr) :
    fetchChecked s = .ok i ↔ codeFetch s = .ok i ∧ parityOk s.params i = true := by
  unfold fetchChecked
  cases hc : codeFetch s with
  | error f => exact ⟨nofun, fun e => nomatch e.1⟩
  | ok x =>
    by_cases h : parityOk s.params x = true
    · simp only [h, if_true]
      exact ⟨fun e => ⟨e, Except.ok.inj e ▸ h⟩, fun e => e.1⟩
    · have h' : parityOk s.params x = false := by simpa using h
      simp only [h', Bool.false_eq_true, if_false]
      exact ⟨nofun, fun e => absurd (Except.ok.inj e.1 ▸ e.2) h⟩

theorem fetchChecked_error (s : State) (f : Fault) :
    fetchChecked s = .error f ↔ codeFetch s = .error f ∨
      ∃ i, codeFetch s = .ok i ∧ parityOk s.params i = false ∧
        f = .corruptInstruction s.pc (pack s.params i) := by
  unfold fetchChecked
  cases hc : codeFetch s with
  | error g => simp
  | ok x =>
    by_cases h : parityOk s.params x = true
    · simp only [h, if_true]
      exact ⟨nofun, fun e => e.elim nofun fun ⟨i, h1, h2, _⟩ => by cases h1; simp [h] at h2⟩
    · have h' : parityOk s.params x = false := by simpa using h
      simp only [h', Bool.false_eq_true, if_false]
      exact ⟨fun e => .inr ⟨x, rfl, h', (Except.error.inj e).symm⟩,
        fun e => e.elim nofun fun ⟨i, h1, _, h3⟩ => by cases h1; rw [h3]⟩

/-! ### Going on -/

@[simp] theorem attempt_ok {α : Type} (a : α) (k : α → Result) : attempt (.ok a) k = k a := rfl
@[simp] theorem attempt_error {α : Type} (f : Fault) (k : α → Result) : attempt (.error f) k = .fault f := rfl

theorem attempt_next {α : Type} {r : Except Fault α} {k : α → Result} {t : State} :
    attempt r k = .next t ↔ ∃ a, r = .ok a ∧ k a = .next t := by
  cases r <;> simp

theorem attempt_fault {α : Type} {r : Except Fault α} {k : α → Result} {f : Fault} :
    attempt r k = .fault f ↔ r = .error f ∨ ∃ a, r = .ok a ∧ k a = .fault f := by
  cases r <;> simp

theorem attempt_refused {α : Type} {r : Except Fault α} {k : α → Result} {q : Refusal} :
    attempt r k = .refused q ↔ ∃ a, r = .ok a ∧ k a = .refused q := by
  cases r <;> simp

theorem withMode_legal {m : Mnemonic} {mode : Mode} (h : legalMode m mode = true) (s : State) (k : Result) :
    withMode m mode s k = k := by
  simp [withMode, h]

theorem withMode_illegal {m : Mnemonic} {mode : Mode} (h : legalMode m mode = false) (s : State) (k : Result) :
    withMode m mode s k = .fault (.illegalInstruction s.pc m mode.bits) := by
  simp [withMode, h, raise, illegal]

theorem withMode_next {m : Mnemonic} {mode : Mode} {s : State} {k : Result} {t : State} :
    withMode m mode s k = .next t ↔ legalMode m mode = true ∧ k = .next t := by
  unfold withMode raise
  split_ifs with h <;> simp [h]

theorem continueWith_next {s t : State} {a : Word} :
    continueWith s a = .next t ↔ t = { s with acc := a, pc := nextPc s } := by
  simp [continueWith, eq_comm]

theorem continueAt_next {s t : State} {a : Word} :
    continueAt s a = .next t ↔ t = { s with pc := a } := by
  simp [continueAt, eq_comm]

/-! ### Operand routing -/

/-- Two reads, each in range (R45). -/
theorem readThrough_ok (s : State) (arg v : Word) :
    readThrough s arg = .ok v ↔
      Addressable s arg ∧ Addressable s (wordAt s arg) ∧ v = wordAt s (wordAt s arg) := by
  unfold readThrough
  cases h : dataRead s arg with
  | ok ptr =>
    obtain ⟨h1, rfl⟩ := (dataRead_ok _ _ _).1 h
    exact (dataRead_ok _ _ _).trans ⟨fun e => ⟨h1, e⟩, And.right⟩
  | error f => exact ⟨nofun, fun e => absurd e.1 ((dataRead_error _ _ _).1 h).1⟩

/-- The inner read is checked first (R106, R109). -/
theorem readThrough_error (s : State) (arg : Word) (f : Fault) :
    readThrough s arg = .error f ↔
      (¬ Addressable s arg ∧ f = .indexFault s.pc .data arg) ∨
        (Addressable s arg ∧ ¬ Addressable s (wordAt s arg) ∧ f = .indexFault s.pc .data (wordAt s arg)) := by
  unfold readThrough
  cases h : dataRead s arg with
  | ok ptr =>
    obtain ⟨h1, rfl⟩ := (dataRead_ok _ _ _).1 h
    exact (dataRead_error _ _ _).trans ⟨fun e => .inr ⟨h1, e⟩, fun e => e.elim (fun e => absurd h1 e.1) And.right⟩
  | error g =>
    obtain ⟨h1, rfl⟩ := (dataRead_error _ _ _).1 h
    exact ⟨fun e => .inl ⟨h1, (Except.error.inj e).symm⟩,
      fun e => e.elim (fun e => e.2 ▸ rfl) (fun e => absurd e.1 h1)⟩

/-- Every value the operand of R106 can have. -/
theorem operand_ok (m : Mnemonic) (mode : Mode) (arg v : Word) (s : State) :
    operand m mode arg s = .ok v ↔
      match mode with
      | .direct => Addressable s arg ∧ v = wordAt s arg
      | .immediate => v = arg
      | .indirect => Addressable s arg ∧ Addressable s (wordAt s arg) ∧ v = wordAt s (wordAt s arg)
      | .indirect2 => False := by
  cases mode with
  | direct => exact dataRead_ok s arg v
  | immediate => exact ⟨fun e => (Except.ok.inj e).symm, fun e => e ▸ rfl⟩
  | indirect => exact readThrough_ok s arg v
  | indirect2 => exact ⟨nofun, nofun⟩

theorem storeAddress_ok (m : Mnemonic) (mode : Mode) (arg a : Word) (s : State) :
    storeAddress m mode arg s = .ok a ↔
      (mode = .direct ∧ a = arg) ∨ (mode = .indirect ∧ Addressable s arg ∧ a = wordAt s arg) := by
  cases mode with
  | direct => simp [storeAddress, eq_comm]
  | immediate => simp [storeAddress]
  | indirect => simpa [storeAddress] using dataRead_ok s arg a
  | indirect2 => simp [storeAddress]

theorem jumpTarget_ok (mode : Mode) (arg t : Word) (s : State) :
    jumpTarget mode arg s = .ok t ↔
      match mode with
      | .direct => t = pcPlus s arg
      | .immediate => t = arg
      | .indirect => Addressable s arg ∧ t = pcPlus s (wordAt s arg)
      | .indirect2 => Addressable s arg ∧ t = wordAt s arg := by
  cases mode with
  | direct => simp [jumpTarget, eq_comm]
  | immediate => simp [jumpTarget, eq_comm]
  | indirect =>
    cases h : dataRead s arg with
    | ok v =>
      obtain ⟨h1, rfl⟩ := (dataRead_ok _ _ _).1 h
      exact ⟨fun e => ⟨h1, by simpa [jumpTarget, h, Except.map, eq_comm] using e⟩,
        fun e => by simp [jumpTarget, h, Except.map, e.2]⟩
    | error f => simp [jumpTarget, h, Except.map, ((dataRead_error _ _ _).1 h).1]
  | indirect2 => exact dataRead_ok s arg t

/-! ### The step -/

theorem step_loaded {s : State} (h : s.loaded = true) :
    step s = attempt (fetchChecked s) (fun i => exec i s) := by
  simp [step, h]

theorem step_unloaded {s : State} (h : s.loaded = false) : step s = .refused .unloaded := by
  simp [step, h]

/-- Everything a step that goes on can be: the handler of the fetched instruction. -/
theorem step_next {s t : State} :
    step s = .next t ↔ s.loaded = true ∧ ∃ i, fetchChecked s = .ok i ∧ exec i s = .next t := by
  unfold step
  split_ifs with h <;> simp [h, attempt_next]

end Sys2Proof.Machine
end

