-- ==== Sys2Proof/Laws/Host.lean ====
section
/-! SUPPORT. The canonical form of the two arrays through every operation that writes them: a store, a
ranged write, a load, a failed load and reset. The checks of a range, once. -/

namespace Sys2Proof.Machine

/-! ### Single writes -/

theorem putWord_wf {s : State} {i v : Word} (h : Memory.wf s.params.dataSize s.data) (hi : Addressable s i) :
    Memory.wf s.params.dataSize (putWord s i v).data :=
  setWord_wf h (toNat_lt_of_toInt hi.1 hi.2)

theorem dataWrite_wf {s t : State} {i v : Word} (h : Memory.wf s.params.dataSize s.data)
    (ht : dataWrite s i v = .ok t) : Memory.wf t.params.dataSize t.data := by
  obtain ⟨hi, rfl⟩ := (dataWrite_ok _ _ _ _).1 ht
  exact putWord_wf h hi

theorem putCell_wf {s : State} {i : Word} {x : Instr} (h : Code.wf s.params.codeCapacity s.code)
    (hi : InCode s i) : Code.wf s.params.codeCapacity (putCell s i x).code :=
  cellPut_code_wf (v := some x) h (toNat_lt_of_toInt hi.1 hi.2)

theorem reset_memory_wf : Memory.wf State.reset.params.dataSize State.reset.data := memory_nil_wf _

theorem reset_code_wf : Code.wf State.reset.params.codeCapacity State.reset.code := code_nil_wf _

/-! ### Ranges -/

/-- An exact index inside an array is the value of its own Int32. -/
theorem inRange_toInt {n : Nat} {i : Int} (h : inRange n i = true) :
    (wrap32 i).toInt = i ∧ 0 ≤ i ∧ i < (n : Int) := by
  simp only [inRange, decide_eq_true_eq] at h
  refine ⟨?_, h.1, h.2.1⟩
  unfold wrap32
  rw [BitVec.toInt_ofInt]
  rw [Int.bmod_eq_of_le] <;> omega

theorem firstOutside_none {n count : Nat} {start : Word} :
    firstOutside n start count = none ↔
      ∀ k : Nat, k < count → inRange n (start.toInt + (k : Int)) = true := by
  unfold firstOutside rangeOf
  simp [List.find?_eq_none]

theorem firstOutside_some {n count : Nat} {start : Word} :
    (∃ i, firstOutside n start count = some i) ↔
      ∃ k : Nat, k < count ∧ inRange n (start.toInt + (k : Int)) = false := by
  rw [← Option.ne_none_iff_exists', Ne, firstOutside_none]
  simp

theorem putWords_wf (vs : List Word) :
    ∀ (s : State) (i : Int), Memory.wf s.params.dataSize s.data →
      (∀ k : Nat, k < vs.length → inRange s.params.dataSize (i + (k : Int)) = true) →
      Memory.wf s.params.dataSize (putWords s i vs).data := by
  induction vs with
  | nil => exact fun s i h _ => h
  | cons v r ih =>
    intro s i h hr
    have h0 : inRange s.params.dataSize i = true := by simpa using hr 0 (by simp)
    obtain ⟨h1, h2, h3⟩ := inRange_toInt h0
    refine ih (putWord s (wrap32 i) v) (i + 1) (putWord_wf h ⟨by omega, by omega⟩) fun k hk => ?_
    have h4 := hr (k + 1) (by simpa using hk)
    rw [show i + 1 + (k : Int) = i + ((k + 1 : Nat) : Int) by push_cast; ring]
    exact h4

theorem putCells_wf (xs : List Instr) :
    ∀ (s : State) (i : Int), Code.wf s.params.codeCapacity s.code →
      (∀ k : Nat, k < xs.length → inRange s.params.codeCapacity (i + (k : Int)) = true) →
      Code.wf s.params.codeCapacity (putCells s i xs).code := by
  induction xs with
  | nil => exact fun s i h _ => h
  | cons x r ih =>
    intro s i h hr
    have h0 : inRange s.params.codeCapacity i = true := by simpa using hr 0 (by simp)
    obtain ⟨h1, h2, h3⟩ := inRange_toInt h0
    refine ih (putCell s (wrap32 i) x) (i + 1) (putCell_wf h ⟨by omega, by omega⟩) fun k hk => ?_
    have h4 := hr (k + 1) (by simpa using hk)
    rw [show i + 1 + (k : Int) = i + ((k + 1 : Nat) : Int) by push_cast; ring]
    exact h4

/-! ### Loading -/

theorem loadCode_wf (p : Params) (fuel : Nat) :
    ∀ (bytes : List Byte) (n : Nat) (code : List (Nat × Instr)) (c : CodePhase),
      Code.wf p.codeCapacity code → n ≤ p.codeCapacity → loadCode p fuel bytes n code = .ok c →
      Code.wf p.codeCapacity c.code ∧ c.count ≤ p.codeCapacity := by
  induction fuel with
  | zero => intro _ _ _ _ _ _ h; cases h
  | succ k ih =>
    intro bytes n code c hw hn h
    unfold loadCode at h
    split at h <;> try (cases h)
    · exact ⟨hw, hn⟩
    · split_ifs at h with hc
      exact ih _ _ _ _ (cellPut_code_wf hw hc) hc h

/-- The data phase writes only data words and changedDataIndex, and keeps the canonical form. -/
theorem loadData_wf (bytes : List Byte) (s : State) :
    ∀ t, Memory.wf s.params.dataSize s.data → loadData s bytes = .ok t →
      Memory.wf t.params.dataSize t.data ∧
        t = { s with data := t.data, changedDataIndex := t.changedDataIndex } := by
  induction s, bytes using loadData.induct with
  | case1 s => intro t h e; unfold loadData at e; cases e; exact ⟨h, rfl⟩
  | case2 s a0 a1 a2 a3 v0 v1 v2 v3 rest u hu ih =>
    intro t h e
    unfold loadData at e
    rw [hu] at e
    obtain ⟨h1, h2⟩ := ih t (dataWrite_wf h hu) e
    obtain ⟨-, rfl⟩ := (dataWrite_ok _ _ _ _).1 hu
    exact ⟨h1, h2⟩
  | case3 s a0 a1 a2 a3 v0 v1 v2 v3 rest f hf =>
    intro t h e
    unfold loadData at e
    rw [hf] at e
    cases e
  | case4 s b h1 h2 =>
    intro t h e
    unfold loadData at e
    split at e
    · exact absurd rfl h1
    · exact absurd rfl (h2 _ _ _ _ _ _ _ _ _)
    · cases e

theorem ordered_filterMap {α : Type} (n : Nat) (f : Nat → Option (Nat × α))
    (hf : ∀ i e, f i = some e → e.1 = i) : Ordered ((List.range n).filterMap f) := by
  unfold Ordered
  rw [List.pairwise_filterMap]
  refine List.pairwise_lt_range.imp ?_
  intro a b hab x hx y hy
  rw [hf _ _ hx, hf _ _ hy]
  exact hab

/-- Whatever a failed load draws, the arrays are canonical. -/
theorem unloadedState_wf (s : State) :
    Memory.wf s.params.dataSize (unloadedState s).data ∧
      Code.wf s.params.codeCapacity (unloadedState s).code := by
  refine ⟨⟨ordered_filterMap _ _ ?_, ?_⟩, ⟨ordered_filterMap _ _ ?_, ?_⟩⟩
  · intro i e he
    split_ifs at he
    cases he
    rfl
  · intro e he
    obtain ⟨i, hi, he⟩ := List.mem_filterMap.1 he
    split_ifs at he with hz
    cases he
    exact ⟨List.mem_range.1 hi, hz⟩
  · intro i e he
    obtain ⟨x, -, rfl⟩ := Option.map_eq_some_iff.1 he
    rfl
  · intro e he
    obtain ⟨i, hi, he⟩ := List.mem_filterMap.1 he
    obtain ⟨x, -, rfl⟩ := Option.map_eq_some_iff.1 he
    exact List.mem_range.1 hi

/-! ### The host's step -/

theorem stepOutcome_fault {s : State} {f : Fault} : stepOutcome s = .fault f ↔ step s = .fault f := by
  unfold stepOutcome
  cases step s with
  | next t => dsimp only; split_ifs <;> simp
  | fault g => simp
  | refused r => simp

theorem stepOutcome_refused {s : State} {q : Refusal} : stepOutcome s = .refused q ↔ step s = .refused q := by
  unfold stepOutcome
  cases step s with
  | next t => dsimp only; split_ifs <;> simp
  | fault g => simp
  | refused r => simp

/-- Every step at a full cell is one of the three of `StepAt`. -/
theorem stepAt (s : State) (i : Instr) : StepAt s i := by
  intro hl hc
  refine ⟨?_, fun f h => by simp [hostCall, hostStep, stepOutcome_fault.2 h]⟩
  rw [step_loaded hl]
  by_cases hf : Fetchable s
  · rw [if_pos hf]
    have h := (codeFetch_ok _ _).2 ⟨hf, hc⟩
    by_cases hp : popcount (pack s.params i) % 2 = 0
    · rw [if_pos hp, (fetchChecked_ok _ _).2 ⟨h, by simp [parityOk, hp]⟩]
      rfl
    · rw [if_neg hp, (fetchChecked_error _ _).2 (.inr ⟨i, h, by simp [parityOk, hp], rfl⟩)]
      rfl
  · rw [if_neg hf, (fetchChecked_error _ _).2 (.inl ((codeFetch_error _ _).2 ⟨.inl hf, rfl⟩))]
    rfl

theorem readReply_snd {α : Type} (s : State) (r : Except Fault α) (k : α → HostReply) :
    (readReply s r k).2 = s := by
  cases r <;> rfl

end Sys2Proof.Machine
end

