-- ==== Sys2Proof/Laws/PerInstr.lean ====
section
/-! SUPPORT. The family Encoded: the encoded form of each instruction begins with its packed opcode and has
the length of its mnemonic (R65, R67). -/

namespace Sys2Proof.Laws.Encoded

/-- What is said of each instruction. -/
def Statement (i : Instr) : Prop :=
  ∀ p : Params, (encode p i).head? = some (pack p i) ∧ (encode p i).length = i.mnemonic.lengthBytes

theorem nop (mode : Mode) (b : Bool) : Statement (.nop mode b) := fun _ => ⟨rfl, rfl⟩
theorem not (mode : Mode) (b : Bool) : Statement (.not mode b) := fun _ => ⟨rfl, rfl⟩
theorem halt (mode : Mode) (b : Bool) : Statement (.halt mode b) := fun _ => ⟨rfl, rfl⟩
theorem lod (mode : Mode) (b : Bool) (a : Word) : Statement (.lod mode b a) := fun _ => ⟨rfl, rfl⟩
theorem sto (mode : Mode) (b : Bool) (a : Word) : Statement (.sto mode b a) := fun _ => ⟨rfl, rfl⟩
theorem add (mode : Mode) (b : Bool) (a : Word) : Statement (.add mode b a) := fun _ => ⟨rfl, rfl⟩
theorem sub (mode : Mode) (b : Bool) (a : Word) : Statement (.sub mode b a) := fun _ => ⟨rfl, rfl⟩
theorem mul (mode : Mode) (b : Bool) (a : Word) : Statement (.mul mode b a) := fun _ => ⟨rfl, rfl⟩
theorem div (mode : Mode) (b : Bool) (a : Word) : Statement (.div mode b a) := fun _ => ⟨rfl, rfl⟩
theorem and (mode : Mode) (b : Bool) (a : Word) : Statement (.and mode b a) := fun _ => ⟨rfl, rfl⟩
theorem jump (mode : Mode) (b : Bool) (a : Word) : Statement (.jump mode b a) := fun _ => ⟨rfl, rfl⟩
theorem jmpz (mode : Mode) (b : Bool) (a : Word) : Statement (.jmpz mode b a) := fun _ => ⟨rfl, rfl⟩
theorem cmpl (mode : Mode) (b : Bool) (a : Word) : Statement (.cmpl mode b a) := fun _ => ⟨rfl, rfl⟩
theorem cmpz (mode : Mode) (b : Bool) (a : Word) : Statement (.cmpz mode b a) := fun _ => ⟨rfl, rfl⟩

end Sys2Proof.Laws.Encoded
end

