-- ==== Sys2Proof/Tests/Slice0.lean ====
section
/-! SUPPORT. The session's own tests: expected values are the spec's own vectors (95_test_vectors.md) and
encodings (R70, R71). The witnesses of the statements' hypotheses stand in Witnesses.lean. -/

namespace Sys2Proof.Tests

open Sys2Proof.Machine

/-! ### Helpers -/

/-- A loaded machine at the sizes of the vectors (DATA_SIZE 16, CODE_CAPACITY 64), with given registers, data and
code. -/
def st (acc : Word) (pc : Word) (data : List (Nat × Word)) (code : List (Nat × Instr)) (size : Nat) : State :=
  { params := Params.default, acc := acc, pc := pc, code := code, programSize := size, data := data,
    changedDataIndex := 0#32, loaded := true, draws := 0 }

/-- A state for one handler: no code is needed. -/
def sd (acc pc : Word) (data : List (Nat × Word)) : State := st acc pc data [] 0

/-- The accumulator and the pc of a next state. -/
def accPc (r : Result) : Option (Word × Word) :=
  match r with
  | .next t => some (t.acc, t.pc)
  | _ => none

/-- The word at an index, changedDataIndex and the accumulator of a next state. -/
def wordAfter (i : Word) (r : Result) : Option (Word × Word × Word) :=
  match r with
  | .next t => some (wordAt t i, t.changedDataIndex, t.acc)
  | _ => none

/-- The fault of a step, if it ends in one. -/
def faultOf (r : Result) : Option Fault :=
  match r with
  | .fault f => some f
  | _ => none

/-- A mnemonic numbering other than the default one. -/
def reversed : Params := { dataSize := 1, codeCapacity := 1, mnemonicOrder := Mnemonic.all.reverse }

/-! ### WellFormed -/

/-- V-S5: {STO, IMMEDIATE, parity 1} packs to 0x23, which is odd. -/
theorem test_illFormed_parity : ¬ WellFormed Params.default (.sto .direct false 5#32) := by decide

/-- V-S4: STO IMMEDIATE has the right parity but is no legal pair. -/
theorem test_illFormed_mode :
    parityOk Params.default (.sto .immediate false 5#32) = true ∧
      ¬ WellFormed Params.default (.sto .immediate false 5#32) := by decide

theorem test_wellFormed : WellFormed Params.default (.lod .immediate true 5#32) := by decide

/-- R7: a numbering with a mnemonic twice, or a size 0, is no valid parameter. -/
theorem test_invalid_params :
    ¬ Params.Valid { dataSize := 16, codeCapacity := 64, mnemonicOrder := .nop :: Mnemonic.all.tail.tail } ∧
      ¬ Params.Valid { Params.default with dataSize := 0 } ∧
      ¬ Params.Valid { Params.default with codeCapacity := 0 } := by decide

/-! ### Codec -/

/-- The opcode map of R71, all 56 pairs, rows in the order of the table. -/
theorem test_opcode_map :
    (Mnemonic.all.map fun m =>
        [Mode.direct, .immediate, .indirect, .indirect2].map (encodeOpcode Params.default m)) =
      [[0x00, 0x03, 0x05, 0x06], [0x09, 0x0A, 0x0C, 0x0F], [0x11, 0x12, 0x14, 0x17], [0x18, 0x1B, 0x1D, 0x1E],
        [0x21, 0x22, 0x24, 0x27], [0x28, 0x2B, 0x2D, 0x2E], [0x30, 0x33, 0x35, 0x36]] ++
      [[0x39, 0x3A, 0x3C, 0x3F], [0x41, 0x42, 0x44, 0x47], [0x48, 0x4B, 0x4D, 0x4E], [0x50, 0x53, 0x55, 0x56],
        [0x59, 0x5A, 0x5C, 0x5F], [0x60, 0x63, 0x65, 0x66], [0x69, 0x6A, 0x6C, 0x6F]] := by decide

/-- The 32 rows of spec/opcode_table.json decode to a legal pair, and each runs as the first instruction
after reset: all go on but the two forms of DIV that then divide by a zero word or argument, and DIV through
data[0] = 0. -/
theorem test_table_rows_run_from_reset :
    ([0x00, 0x09, 0x11, 0x18, 0x1B, 0x1D, 0x21, 0x24, 0x28, 0x2B, 0x2D, 0x30, 0x33, 0x35, 0x39, 0x3A, 0x3C,
        0x48, 0x4B, 0x50, 0x53, 0x55, 0x56, 0x59, 0x5A, 0x5C, 0x5F, 0x60, 0x69].all fun w =>
      (accPc (step (State.reset.withFetchWord 8 w))).isSome &&
        ((decodeTableWord 8 w).map fun i => decide (WellFormed Params.default i)) == some true) = true ∧
    ([0x41, 0x42, 0x44].all fun w =>
      faultOf (step (State.reset.withFetchWord 8 w)) == some (.divideByZero 0#32)) = true := by decide +kernel

/-- V-C5 to V-C13. -/
theorem test_decode_byte_classes :
    [0x00, 0x01, 0x1E, 0x70, 0x71, 0x7E, 0x7F, 0x80, 0xFF].map (decodeByte Params.default) =
      [.ok .nop .direct false, .corrupt 0x01, .ok .lod .indirect2 false, .corrupt 0x70, .unknownMnemonic 0x71,
        .unknownMnemonic 0x7E, .corrupt 0x7F, .sentinel, .sentinel] := by decide

/-- R72: the sizes of the classes of all 256 bytes. -/
theorem test_byte_class_counts :
    ((List.range 256).filter fun b => decodeByte Params.default (BitVec.ofNat 8 b) == .sentinel).length = 128 ∧
    ((List.range 256).filter fun b =>
      decodeByte Params.default (BitVec.ofNat 8 b) == .corrupt (BitVec.ofNat 8 b)).length = 64 ∧
    ((List.range 256).filter fun b =>
      decodeByte Params.default (BitVec.ofNat 8 b) == .unknownMnemonic (BitVec.ofNat 8 b)).length = 8 := by
  decide +kernel

/-- V-C17 and V-C18: the argument is big-endian. -/
theorem test_argument_bytes :
    argOfBytes 0xFF 0xFF 0xFF 0xFB = (-5) ∧ argOfBytes 0x80 0 0 0 = 0x80000000#32 ∧
      decodeInstr Params.default [0x1B, 0, 0, 0] = .truncated ∧ decodeInstr Params.default [] = .exhausted := by
  decide

/-- R8: under another numbering the byte 0x00 names CMPZ, and packing follows. -/
theorem test_other_numbering :
    decodeByte reversed 0x00 = .ok .cmpz .direct false ∧ pack reversed (.nop .direct true) = 0x69 := by decide

/-! ### The handlers (vectors V-M, V-L, V-A, V-J, V-K) -/

theorem test_nop : accPc (exec (.nop .direct false) (sd 7 4 [])) = some (7, 5) := by decide
theorem test_nop_pc_wraps : accPc (exec (.nop .direct false) (sd 7 0x7FFFFFFF [])) = some (7, 0x80000000) := by decide
theorem test_not_zero : accPc (exec (.not .direct true) (sd 0 0 [])) = some (1, 1) := by decide
theorem test_not_min : accPc (exec (.not .direct true) (sd 0x80000000 0 [])) = some (0, 1) := by decide
theorem test_halt : accPc (exec (.halt .direct true) (sd 5 1 [])) = some (5, 1) := by decide
theorem test_halt_illegal : faultOf (exec (.halt .indirect false) (sd 5 1 [])) =
    some (.illegalInstruction 1 .halt 2#2) := by decide

theorem test_lod_indirect : accPc (exec (.lod .indirect true 2) (sd 0 0 [(2, 7), (7, -9)])) = some (-9, 1) := by
  decide
/-- V-L5 and V-L6: a negative index, and the outer read. -/
theorem test_lod_faults :
    faultOf (exec (.lod .direct false (-1)) (sd 0 0 [])) = some (.indexFault 0 .data (-1)) ∧
      faultOf (exec (.lod .indirect true 2) (sd 0 0 [(2, 99)])) = some (.indexFault 0 .data 99) := by decide
/-- V-L10: the pointer itself is overwritten. -/
theorem test_sto_indirect : wordAfter 0 (exec (.sto .indirect false 0) (sd 9 0 [])) = some (9, 0, 9) := by decide
/-- V-L11, V-L12. -/
theorem test_sto_faults :
    faultOf (exec (.sto .indirect false 0) (sd 9 3 [(0, 16)])) = some (.indexFault 3 .data 16) ∧
      faultOf (exec (.sto .immediate false 5) (sd 9 3 [])) = some (.illegalInstruction 3 .sto 1#2) := by decide
/-- R44 with the canonical form: storing 0 lists nothing. -/
theorem test_sto_zero_erases :
    (match exec (.sto .direct true 3) (sd 0 0 [(2, 1), (3, 4), (5, 6)]) with
      | .next t => t.data
      | _ => []) = [(2, 1), (5, 6)] := by decide

theorem test_add_wraps : accPc (exec (.add .immediate true 1) (sd 0x7FFFFFFF 0 [])) = some (0x80000000, 1) := by
  decide
theorem test_add_indirect : accPc (exec (.add .indirect true 5) (sd 1 0 [(5, 6), (6, -1)])) = some (0, 1) := by decide
theorem test_sub_order : accPc (exec (.sub .immediate true 5) (sd 3 0 [])) = some (-2, 1) := by decide
theorem test_sub_min : accPc (exec (.sub .immediate true 0x80000000) (sd 0 0 [])) = some (0x80000000, 1) := by decide
theorem test_mul_low_bits : accPc (exec (.mul .immediate false 0x10000) (sd 0x10000 0 [])) = some (0, 1) := by decide
theorem test_mul_signed : accPc (exec (.mul .immediate false 4) (sd (-3) 0 [])) = some (-12, 1) := by decide
/-- V-A13 to V-A17. -/
theorem test_div_signs :
    accPc (exec (.div .immediate false 2) (sd 7 0 [])) = some (3, 1) ∧
      accPc (exec (.div .immediate false 2) (sd (-7) 0 [])) = some (-3, 1) ∧
      accPc (exec (.div .immediate false (-2)) (sd 7 0 [])) = some (-3, 1) ∧
      accPc (exec (.div .immediate false (-2)) (sd (-7) 0 [])) = some (3, 1) ∧
      accPc (exec (.div .immediate false (-1)) (sd 0x80000000 0 [])) = some (0x80000000, 1) := by decide
/-- V-A19, V-A20, V-S7: the divisor, the index before it, the mode before both. -/
theorem test_div_faults :
    faultOf (exec (.div .direct true 3) (sd 0 0 [])) = some (.divideByZero 0) ∧
      faultOf (exec (.div .direct true 32) (sd 5 0 [])) = some (.indexFault 0 .data 32) ∧
      faultOf (exec (.div .indirect2 true 0) (sd 5 0 [])) = some (.illegalInstruction 0 .div 3#2) := by decide
theorem test_and_logical : accPc (exec (.and .immediate true 1) (sd 2 0 [])) = some (1, 1) := by decide
/-- V-A26, V-A27. -/
theorem test_and_faults :
    faultOf (exec (.and .direct false 153) (sd 0 0 [])) = some (.indexFault 0 .data 153) ∧
      faultOf (exec (.and .indirect true 0) (sd 1 0 [])) = some (.illegalInstruction 0 .and 2#2) := by decide

/-- V-J1 to V-J4. -/
theorem test_jump_modes :
    accPc (exec (.jump .direct false (-4)) (sd 0 10 [])) = some (0, 6) ∧
      accPc (exec (.jump .immediate true 3) (sd 0 10 [])) = some (0, 3) ∧
      accPc (exec (.jump .indirect true 3) (sd 0 10 [(3, 2)])) = some (0, 12) ∧
      accPc (exec (.jump .indirect2 false 3) (sd 0 10 [(3, 2)])) = some (0, 2) := by decide
theorem test_jump_fault : faultOf (exec (.jump .indirect true 64) (sd 0 2 [])) = some (.indexFault 2 .data 64) := by
  decide
/-- V-J9, V-J11. -/
theorem test_jmpz_taken_or_not :
    accPc (exec (.jmpz .immediate false 7) (sd 1 2 [])) = some (1, 3) ∧
      accPc (exec (.jmpz .direct true 5) (sd 0 2 [])) = some (0, 7) := by decide
/-- V-J12: data[arg] is read although the jump is not taken. -/
theorem test_jmpz_eager : faultOf (exec (.jmpz .indirect2 true 64) (sd 1 2 [])) = some (.indexFault 2 .data 64) := by
  decide
theorem test_cmpl : accPc (exec (.cmpl .direct false 4) (sd 5 0 [(4, -3)])) = some (1, 1) ∧
    accPc (exec (.cmpl .direct false 4) (sd 5 0 [(4, 0x7FFFFFFF)])) = some (0, 1) := by decide
theorem test_cmpz : accPc (exec (.cmpz .direct true 0) (sd 5 0 [])) = some (1, 1) ∧
    accPc (exec (.cmpz .direct true 0) (sd 5 0 [(0, 8)])) = some (0, 1) := by decide

/-! ### Step, run and reset -/

/-- V-S1 to V-S3, V-S8. -/
theorem test_fetch_faults :
    faultOf (step State.reset) = some (.indexFault 0 .code 0) ∧
      faultOf (step (st 0 (-1) [] [(0, .nop .direct false)] 1)) = some (.indexFault (-1) .code (-1)) ∧
      faultOf (step (st 0 1 [] [(0, .nop .direct false)] 1)) = some (.indexFault 1 .code 1) ∧
      faultOf (step (st 0 1 [] [(0, .nop .direct false)] 2)) = some (.indexFault 1 .code 1) := by decide

/-- V-S5: parity before mode; L1-3: an injected odd opcode, here by a word with no check. -/
theorem test_corrupt :
    faultOf (step (st 0 0 [] [(0, .sto .immediate true 5)] 1)) = some (.corruptInstruction 0 0x23) ∧
      faultOf (step (State.reset.withFetchWord 8 0x01)) = some (.corruptInstruction 0 0x01) := by decide

/-- Program P1 of 95_test_vectors.md from its image: Halted, acc = 5, pc = 1, one halt notification. -/
theorem test_run_P1 :
    (let r := execute 2 (load (.bytes [0x1B, 0, 0, 0, 5, 0x11, 0xFF]) State.reset).2
     (r.ending, r.final.acc, r.final.pc, r.notices)) = (.halted, 5, 1, [.haltNotification]) := by decide

/-- Program P2: DivideByZero at the DIV, surfaced after the halt notification. -/
theorem test_run_P2 :
    (let r := execute 3 (load (.bytes [0x1B, 0, 0, 0, 1, 0x1B, 0, 0, 0, 0, 0x42, 0, 0, 0, 0, 0xFF]) State.reset).2
     (r.ending, r.final.acc, r.final.pc, r.notices)) =
      (.fault (.divideByZero 2), 0, 2, [.haltNotification, .faultSurfaced (.divideByZero 2)]) := by decide

/-! ### Loader (V-B1 to V-B11) -/

theorem test_load_status :
    ([[0x11, 0xFF], [0x11, 0x80], [0x11], [0x01, 0xFF], [0x71, 0xFF], [0x1B, 0, 0, 0xFF],
        [0xFF, 0, 0, 0, 3, 0, 0], [0xFF, 0, 0, 0, 0x10, 0, 0, 0, 1], [0x1E, 0, 0, 0, 0, 0xFF]].map fun b =>
      (load (.bytes b) State.reset).1) =
      [.success, .success, .failure .noSentinel, .failure (.corruptInstruction 0x01),
        .failure (.unknownMnemonic 0x71), .failure .truncatedArgument, .failure .truncatedPair,
        .failure (.dataAddress 16), .success] ∧
      (load .missing State.reset).1 = .failure .missingFile ∧
      (load .ioError State.reset).1 = .failure .ioError := by decide

/-- V-B10, V-B3. -/
theorem test_load_state :
    (load (.bytes [0xFF, 0, 0, 0, 2, 0, 0, 0, 1, 0, 0, 0, 2, 0, 0, 0, 5]) State.reset).2.data = [(2, 5)] ∧
      (load (.bytes [0xFF, 0, 0, 0, 2, 0, 0, 0, 1]) State.reset).2.changedDataIndex = 2 ∧
      (load (.bytes [0x11]) State.reset).2.loaded = false := by decide

/-! ### Host accessors -/

theorem test_ranged_write :
    (hostCall (.setDataRange 14 [1, 2]) (sd 0 0 [])).1 = .done ∧
      (hostCall (.setDataRange 14 [1, 2]) (sd 0 0 [])).2.data = [(14, 1), (15, 2)] ∧
      hostCall (.setDataRange 15 [1, 2]) (sd 0 0 []) = (.fault (.indexFault 0 .data 16), sd 0 0 []) ∧
      hostCall (.getDataRange (-1) 0) (sd 0 0 []) = (.words [], sd 0 0 []) := by decide

theorem test_set_program_size :
    (hostCall (.setProgramSize 64) (sd 0 0 [])).2.programSize = 64 ∧
      (hostCall (.setProgramSize 65) (sd 0 0 [])).1 = .refused (.badProgramSize 65) ∧
      (hostCall (.setProgramSize (-1)) (sd 0 0 [])).1 = .refused (.badProgramSize (-1)) := by decide

/-! ### Renderings and assembler -/

/-- V-T3, V-T7, V-T6. -/
theorem test_render :
    renderText (.jump .indirect2 false 255) = ['J', 'U', 'M', 'P', ' ', ' ', '&', 'F', 'F'] ∧
      renderHex 0x80000000 = ['-', '8', '0', '0', '0', '0', '0', '0', '0'] ∧
      renderBinary Params.default (.nop .direct true) = ['0', '0', '0', '0', '0', '0', '0', '1'] := by decide +kernel

/-- L1-4 with the keyword K. -/
theorem test_assemble :
    assembleText Params.default ['K'] true
        (['L', 'O', 'D', ' ', '#', '5', '\n', 'H', 'A', 'L', 'T', '\n', 'K', '\n', '3', ' ', '9', '\n']) =
      .image [0x1B, 0, 0, 0, 5, 0x11, 0xFF, 0, 0, 0, 3, 0, 0, 0, 9] := by decide +kernel

/-- L1-5, V-V1 to V-V5, V-V10, V-V11. -/
theorem test_diagnostics :
    validate ['K'] [['H', 'A', 'L', 'T'], ['K'], ['K']] = [(3, .duplicateSeparator)] ∧
      validate ['K'] [['H', 'A', 'L', 'T'], [], ['H', 'A', 'L', 'T']] = [(2, .blankLine)] ∧
      validate ['K'] [['H', 'A', 'L', 'T'], [], []] = [] ∧
      validate ['K'] [[' ', 'H', 'A', 'L', 'T']] = [(1, .leadingWhitespace)] ∧
      validate ['K'] [['H', 'A', 'L', 'T', ' ', '1']] = [(1, .unexpectedArgument)] ∧
      validate ['K'] [['L', 'O', 'D']] = [(1, .argumentCount)] ∧
      validate ['K'] [['k']] = [(1, .separatorCase)] ∧
      validate ['K'] [['K', ' ', 'x']] = [(1, .separatorContent)] := by decide +kernel

/-- V-V7 to V-V9, V-V12. -/
theorem test_diagnostics_operands :
    validate ['K'] [['L', 'O', 'D', ' ', '#', 'G']] = [(1, .argumentNotHex)] ∧
      parseHex ['1', '0', '0', '0', '0', '0', '0', '0', '0'] = none ∧
      validate ['K'] [['K'], ['3']] = [(2, .dataLineFormat)] ∧
      validate ['K'] [['l', 'o', 'd', ' ', '#', '5'], ['F', 'O', 'O']] =
        [(1, .mnemonicNotUppercase), (2, .unknownMnemonic)] := by decide +kernel

end Sys2Proof.Tests
end

