-- ==== Sys2Proof/Tests/Witnesses.lean ====
section
/-! SUPPORT. A witness for the hypotheses of every statement that has some. -/

namespace Sys2Proof.Tests

open Sys2Proof.Machine

/-- A numbering that is the default one, and one that is not. -/
theorem witness_EncodedOpcodeHasEvenParity : Params.default.Valid ∧ reversed.Valid ∧
    parseCodeLine Params.default ['S', 'T', 'O', ' ', '#', '5'] = some (.sto .immediate false 5) := by decide +kernel
theorem witness_LegalPairsAreTheTable :
    legalMode (Instr.and .indirect true 0).mnemonic (Instr.and .indirect true 0).mode = false := by decide
/-- Every way through `StepAt`: a pc out of range, an odd opcode, an even one, and a fault of the handler. -/
theorem witness_StepAt :
    ((st 0 0 [] [(0, .nop .direct false)] 0).loaded = true ∧
        cellAt (st 0 0 [] [(0, .nop .direct false)] 0) 0 = some (.nop .direct false) ∧
        ¬ Fetchable (st 0 0 [] [(0, .nop .direct false)] 0)) ∧
      (Fetchable (st 0 0 [] [(0, .nop .direct true)] 1) ∧
        cellAt (st 0 0 [] [(0, .nop .direct true)] 1) 0 = some (.nop .direct true) ∧
        popcount (pack Params.default (.nop .direct true)) % 2 = 1) ∧
      faultOf (step (st 0 0 [] [(0, .cmpl .direct false 16)] 1)) = some (.indexFault 0 .data 16) := by decide
theorem witness_PackedFieldsReadBack : Params.default.Valid ∧ reversed.Valid := by decide
theorem witness_VerdictOfEveryByte : Params.default.Valid ∧ reversed.Valid := by decide
theorem witness_DecodeOfEncode : Params.default.Valid ∧ parityOk Params.default (.jmpz .indirect2 true 7) = true := by
  decide
theorem witness_EncodeOfDecode : Params.default.Valid ∧
    decodeInstr Params.default [0x1D, 0xFF, 0xFF, 0xFF, 0xFB, 0x11] = .ok (.lod .indirect true (-5)) [0x11] := by decide
theorem witness_OddBitFlipsAreDetected : Params.default.Valid ∧
    parityOk Params.default (.lod .immediate true 5) = true ∧
    (0x01#8).getLsbD 7 = false ∧ popcount 0x01 % 2 = 1 ∧ (0x7F#8).getLsbD 7 = false ∧ popcount 0x7F % 2 = 1 ∧
    (0x06#8).getLsbD 7 = false ∧ popcount 0x06 % 2 = 0 := by decide
/-- The last index in range, and the first and last out of range on each side. -/
theorem witness_DataAccessIsBoundsChecked :
    (0 ≤ (15 : Word).toInt ∧ (15 : Word).toInt < ((sd 0 0 []).params.dataSize : Int)) ∧
      ((sd 0 0 []).params.dataSize : Int) ≤ (16 : Word).toInt ∧ (-1 : Word).toInt < 0 := by decide
theorem witness_DataWriteSetsWordAndIndex :
    Addressable (sd 0 0 []) 0 ∧ Addressable (sd 0 0 []) 15 ∧ ¬ Addressable (sd 0 0 []) 16 ∧
      ¬ Addressable (sd 0 0 []) (-1) := by decide
theorem witness_NopAdvances : Mode.immediate ≠ .direct := by decide
theorem witness_NotNegatesLogically : Mode.indirect ≠ .direct := by decide
theorem witness_HaltStopsAndChangesNothing : Mode.indirect2 ≠ .direct ∧
    (st 5 1 [] [(1, .halt .direct true)] 2).loaded = true ∧
    fetchChecked (st 5 1 [] [(1, .halt .direct true)] 2) = .ok (.halt .direct true) := by decide

/-- The state the operand witnesses use: data[0] = 5, data[1] = 16 (out of range), data[5] = 3. -/
def wd : State := sd 7 4 [(0, 5), (1, 16), (5, 3)]

/-- Every mode that sources an operand, and every way a read can be out of range, at the ends of the range. -/
theorem witness_operands :
    (Addressable wd 15 ∧ Sourced wd .direct 15 0) ∧ Sourced wd .immediate (-1) (-1) ∧ Sourced wd .indirect 0 3 ∧
      SourceOutside wd .direct 16 16 ∧ SourceOutside wd .direct (-1) (-1) ∧ SourceOutside wd .indirect 16 16 ∧
      SourceOutside wd .indirect 1 16 := by
  unfold Sourced SourceOutside
  decide
theorem witness_LodLoadsOperand : Sourced wd .direct 0 5 ∧ SourceOutside wd .indirect 1 16 := by
  unfold Sourced SourceOutside
  decide
theorem witness_AddWrapsExactSum : Sourced wd .indirect 0 3 ∧ SourceOutside wd .direct 16 16 := by
  unfold Sourced SourceOutside
  decide
theorem witness_SubWrapsExactDifference : Sourced wd .immediate 9 9 ∧ SourceOutside wd .direct (-1) (-1) := by
  unfold Sourced SourceOutside
  decide
theorem witness_MulKeepsLowBits : Sourced wd .direct 5 3 ∧ SourceOutside wd .indirect 16 16 := by
  unfold Sourced SourceOutside
  decide
theorem witness_DivTruncatesTowardZero :
    (Sourced wd .direct 5 3 ∧ (3 : Word) ≠ 0#32) ∧ Sourced wd .direct 15 0#32 ∧ SourceOutside wd .indirect 1 16 := by
  unfold Sourced SourceOutside
  decide
theorem witness_AndIsLogical :
    Sourced wd .direct 0 5 ∧ Sourced wd .immediate 0 0 ∧ ¬ Addressable wd 16 := by
  unfold Sourced
  decide
/-- A direct store in range and out of range, an indirect one in range, through a bad pointer, and with a bad
argument. -/
theorem witness_StoStoresAccumulator :
    Addressable wd 15 ∧ ¬ Addressable wd 16 ∧ (Addressable wd 0 ∧ (5 : Word) = wordAt wd 0 ∧ Addressable wd 5) ∧
      (Addressable wd 1 ∧ (16 : Word) = wordAt wd 1) ∧ ¬ Addressable wd (-1) := by decide
theorem witness_JumpGoesToTarget :
    Target wd .direct (-4) 0 ∧ Target wd .immediate (-1) (-1) ∧ Target wd .indirect 0 9 ∧ Target wd .indirect2 1 16 ∧
      ¬ Addressable wd 16 := by
  unfold Target
  decide
theorem witness_JmpzJumpsOnZero :
    Target wd .direct 3 7 ∧ Target wd .immediate 7 7 ∧ Target wd .indirect 1 20 ∧ Target wd .indirect2 0 5 ∧
      ¬ Addressable wd (-1) := by
  unfold Target
  decide
theorem witness_CmplTestsNegative : Addressable wd 0 ∧ ¬ Addressable wd 16 ∧ Mode.immediate ≠ .direct := by decide
theorem witness_CmpzTestsZero : Addressable wd 15 ∧ ¬ Addressable wd (-1) ∧ Mode.indirect ≠ .direct := by decide

/-- A loaded machine whose last cell (63 of 64) holds an instruction of even parity. -/
def wc : State := st 0 63 [] [(62, .nop .direct true), (63, .add .immediate true 1)] 64

theorem witness_StepRunsFetchedInstruction :
    wc.loaded = true ∧ 0 ≤ wc.pc.toInt ∧ wc.pc.toInt < (wc.programSize : Int) ∧
      wc.pc.toInt < (wc.params.codeCapacity : Int) ∧ cellAt wc wc.pc = some (.add .immediate true 1) ∧
      parityOk wc.params (.add .immediate true 1) = true := by decide
/-- Each of the four ways a fetch fails. -/
theorem witness_BadPcFaultsAtFetch :
    (st 0 (-1) [] [] 1).pc.toInt < 0 ∧ ((st 0 1 [] [] 1).programSize : Int) ≤ (st 0 1 [] [] 1).pc.toInt ∧
      ((st 0 64 [] [] 65).params.codeCapacity : Int) ≤ (st 0 64 [] [] 65).pc.toInt ∧
      cellAt (st 0 0 [] [] 1) (st 0 0 [] [] 1).pc = none ∧ (st 0 0 [] [] 1).loaded = true := by decide
theorem witness_CorruptInstructionStopsBeforeDispatch :
    wc.loaded = true ∧ (codeFetch wc = .ok (.add .immediate true 1) ∧
      popcount (pack wc.params (.add .immediate true 1)) % 2 = 0) ∧
      codeFetch { wc with pc := 62 } = .ok (.nop .direct true) ∧
      popcount (pack wc.params (.nop .direct true)) % 2 = 1 := by decide
theorem witness_IllegalModeTraps :
    legalMode (Instr.sto .immediate false 5).mnemonic (Instr.sto .immediate false 5).mode = false ∧
      legalMode (Instr.sto .indirect false 5).mnemonic (Instr.sto .indirect false 5).mode = true ∧
      (st 0 63 [] [(63, .sto .immediate false 5)] 64).loaded = true ∧
      codeFetch (st 0 63 [] [(63, .sto .immediate false 5)] 64) = .ok (.sto .immediate false 5) := by decide
theorem witness_UnloadedStepIsRefused : ({ wd with loaded := false } : State).loaded = false := by decide
/-- Every link of the order of checks. -/
theorem witness_FirstFailingCheckDecides :
    (codeFetch (sd 0 0 []) = .error (.indexFault 0 .code 0)) ∧
      (codeFetch { wc with pc := 62 } = .ok (.nop .direct true) ∧ parityOk wc.params (.nop .direct true) = false) ∧
      (codeFetch (st 0 0 [] [(0, .not .immediate false)] 1) = .ok (.not .immediate false) ∧
        parityOk Params.default (.not .immediate false) = true ∧ legalMode .not .immediate = false) ∧
      (codeFetch (st 0 0 [] [(0, .div .direct true 32)] 1) = .ok (.div .direct true 32) ∧
        parityOk Params.default (.div .direct true 32) = true) ∧
      SourceOutside (st 0 0 [] [(0, .div .direct true 32)] 1) .direct 32 32 := by
  unfold SourceOutside
  decide
theorem witness_AccumulatorWritersFrame :
    (Instr.cmpl .direct false 4).mnemonic ∈ [Mnemonic.not, .lod, .add, .sub, .mul, .div, .and, .cmpl, .cmpz] ∧
      (accPc (exec (.cmpl .direct false 4) wd)).isSome = true := by decide
theorem witness_ControlInstructionsFrame :
    (Instr.jump .indirect true 0).mnemonic ∈ [Mnemonic.nop, .halt, .jump, .jmpz] ∧
      (accPc (exec (.jump .indirect true 0) wd)).isSome = true := by decide
theorem witness_StoFrame : (accPc (exec (.sto .indirect false 0) wd)).isSome = true ∧
    storeAddress .sto .indirect 0 wd = .ok 5 := by decide
theorem witness_NoStepWritesCode : (accPc (step wc)).isSome = true := by decide
/-- A store of the value a word already holds still sets changedDataIndex. -/
theorem witness_OnlyStoreWritesData :
    (match step (st 3 0 [(5, 3)] [(0, .sto .direct true 5)] 1) with
      | .next t => decide (t.changedDataIndex ≠ 0) && decide (t.data = [(5, 3)])
      | _ => false) = true := by decide
theorem witness_AccumulatorWriters : accPc (step wc) = some (1, 64) ∧ wc.acc ≠ 1 := by decide
theorem witness_StepKeepsInvariant : wc.Inv ∧ (accPc (step wc)).isSome = true := by decide
theorem witness_HostCallsKeepInvariant : wc.Inv ∧ wd.Inv := by decide
theorem witness_EverySessionMeetsInvariant : reversed.Valid := by decide
theorem witness_HaltNotifiedOnce :
    (execute 2 (st 5 0 [] [(0, .nop .direct false), (1, .halt .direct true)] 2)).ending = .halted ∧
      (execute 1 (sd 0 0 [])).ending = .fault (.indexFault 0 .code 0) ∧ (execute 0 wd).ending = .running := by decide
theorem witness_EndedRunNeedsNoMoreFuel : (execute 1 (sd 0 0 [])).ending ≠ .running := by decide
/-- A step that faults, one that continues, and a run of both. -/
theorem witness_FaultedRunStaysAtFault :
    faultOf (step (sd 0 0 [])) = some (.indexFault 0 .code 0) ∧
      stepOutcome wc = .continued { wc with acc := 1, pc := 64 } ∧
      (execute 2 wc).ending = .fault (.indexFault 64 .code 64) := by decide
/-- Each fault of a handler: an illegal mode, a divisor 0 read at the last word, an argument one past the
end, and a word an INDIRECT operand reads through. -/
theorem witness_FaultsOfEachInstruction :
    faultOf (exec (.and .indirect true 16) wd) = some (.illegalInstruction 4 .and 2) ∧
      faultOf (exec (.div .direct true 15) wd) = some (.divideByZero 4) ∧
      faultOf (exec (.sto .direct true 16) wd) = some (.indexFault 4 .data 16) ∧
      faultOf (exec (.sto .indirect true 1) wd) = some (.indexFault 4 .data 16) := by decide
theorem witness_JumpToSelfRunsForever :
    (st 0 63 [] [(63, .jump .direct false 0)] 64).loaded = true ∧
      fetchChecked (st 0 63 [] [(63, .jump .direct false 0)] 64) = .ok (.jump .direct false 0#32) := by decide
/-- Parameters, a program that fills its code array, and two data pairs for its one data word. -/
theorem witness_EncodedImageLoads :
    (State.cleared reversed 0).params.Valid ∧ (∀ i ∈ [Instr.nop .direct true], parityOk reversed i = true) ∧
      [Instr.nop .direct true].length ≤ reversed.codeCapacity ∧
      (∀ d ∈ [((0 : Word), (9 : Word)), (0, 1)], Addressable (State.cleared reversed 0) d.1) :=
  ⟨by decide, by decide, by decide, by simp [Addressable, State.cleared, reversed]⟩
theorem witness_BadCodeSegmentFailsLoad :
    wd.params.Valid ∧ (∀ i ∈ [Instr.halt .direct true], parityOk wd.params i = true) ∧
      [Instr.halt .direct true].length ≤ wd.params.codeCapacity ∧
      decodeByte wd.params 0x01 = .corrupt 0x01 ∧ decodeByte wd.params 0x71 = .unknownMnemonic 0x71 := by decide
theorem witness_FailedLoadRefusesSteps :
    (load (.bytes [0x11]) wd).1 = .failure .noSentinel ∧ (load .missing wd).1 = .failure .missingFile ∧
      (load .ioError wd).1 = .failure .ioError := by decide
theorem witness_RegisterAccessors :
    (0 : Int) ≤ 64 ∧ (64 : Int) ≤ (wd.params.codeCapacity : Int) ∧ (-1 : Int) < 0 ∧
      (wd.params.codeCapacity : Int) < 65 := by decide
/-- A range that ends at the last word, and one that goes one past it. -/
theorem witness_RangedDataWriteIsAllOrNothing :
    (∀ k ∈ List.range [(1 : Word), 2].length, inRange wd.params.dataSize ((14 : Word).toInt + (k : Int)) = true) ∧
      inRange wd.params.dataSize ((15 : Word).toInt + (1 : Int)) = false := by decide
theorem witness_SetCodeIsSeenByFetch : InCode wc 63 ∧ wc.pc = 63 ∧ Fetchable wc ∧ ¬ InCode wc 64 := by decide
theorem witness_RenderedProgramAssembles :
    Params.default.Valid ∧ validKeyword ['D', 'A', 'T', 'A'] = true ∧
      (∀ i ∈ [Instr.lod .immediate true 5, .halt .direct true],
        parityOk Params.default i = true ∧ (i.arg = none → i.mode = .direct)) := by decide +kernel
theorem witness_StatusIsSmallestFlaggedLine :
    validate ['K'] [['K'], ['K']] = [(2, .duplicateSeparator)] ∧ validate ['K'] [['K']] = [] := by decide +kernel

end Sys2Proof.Tests
end

section
/-! Reset and `clear` (R33, R200, R201): both are the cleared state under some parameters, so the values
R33 states are facts about `State.cleared`. -/

namespace Sys2Proof.Machine

/-- `clear` empties the code array. -/
@[simp] theorem cellAt_cleared (p : Params) (n : Nat) (i : Word) : cellAt (State.cleared p n) i = none := by
  rw [cellAt, cleared_code, cellGet_nil]

/-- `clear` zero-fills the data array: a word that is not listed reads as 0. -/
@[simp] theorem wordAt_cleared (p : Params) (n : Nat) (i : Word) : wordAt (State.cleared p n) i = 0#32 := by
  rw [wordAt, cleared_data, cellGet_nil, Option.getD_none, unlistedWord]

/-- What `clear` leaves and what the machine starts from are the cleared state under some parameters. -/
theorem eq_cleared_of_mem_clear_reset {s t : State} (ht : t ∈ [clear s, State.reset]) :
    ∃ p n, t = State.cleared p n := by
  obtain rfl | rfl : t = clear s ∨ t = State.reset := by simpa using ht
  · exact ⟨_, _, clear_eq_cleared s⟩
  · exact ⟨_, _, reset_eq_cleared⟩

/-- Settles O48: both states are cleared ones, and the lemmas on `State.cleared` give each value of R33. -/
theorem clearLeavesResetValues : Obligations.ClearLeavesResetValues := by
  intro s t ht
  obtain ⟨p, n, rfl⟩ := eq_cleared_of_mem_clear_reset ht
  exact ⟨cleared_acc p n, cleared_pc p n, cellAt_cleared p n, cleared_programSize p n, wordAt_cleared p n,
    cleared_loaded p n⟩

end Sys2Proof.Machine
end

section
/-! The data array (R41, R43, R44): every checked access is settled by whether its index is addressable, and
a write in range is `putWord`. -/

namespace Sys2Proof.Machine

/-- An index is out of range on one of the two sides (R41). -/
theorem not_addressable_iff (s : State) (i : Word) :
    ¬ Addressable s i ↔ i.toInt < 0 ∨ (s.params.dataSize : Int) ≤ i.toInt := by
  rw [not_and_or, not_le, not_lt]

/-- Read after write. -/
@[simp] theorem wordAt_putWord_same (s : State) (i v : Word) : wordAt (putWord s i v) i = v := by
  rw [wordAt_putWord, if_pos rfl]

/-- The frame of a write: a word at another index. -/
theorem wordAt_putWord_of_ne {i j : Word} (s : State) (v : Word) (h : j ≠ i) :
    wordAt (putWord s i v) j = wordAt s j := by
  rw [wordAt_putWord, if_neg h.symm]

/-- A write keeps which indices are addressable, since it keeps DATA_SIZE. -/
theorem addressable_putWord (s : State) (i v j : Word) : Addressable (putWord s i v) j ↔ Addressable s j := by
  rw [Addressable, putWord_params]

/-- Settles O9: an index is addressable or out of range on one side, and the laws of `dataRead` and
`dataWrite` give the outcome of each. -/
theorem dataAccessIsBoundsChecked : Obligations.DataAccessIsBoundsChecked := by
  intro s i v
  constructor
  · intro h0 hsize
    have hi : Addressable s i := ⟨h0, hsize⟩
    refine ⟨(dataRead_ok s i _).2 ⟨hi, rfl⟩, putWord s i v, (dataWrite_ok s i v _).2 ⟨hi, rfl⟩, fun j => ?_⟩
    simp only [wordAt_putWord, eq_comm (a := i)]
  · intro hout
    have hi : ¬ Addressable s i := (not_addressable_iff s i).2 hout
    exact ⟨(dataRead_error s i _).2 ⟨hi, rfl⟩, (dataWrite_error s i v _).2 ⟨hi, rfl⟩⟩

/-- Settles O10: a write in range answers `putWord`, whose index a read still finds in range and whose
field lemmas give the frame. -/
theorem dataWriteSetsWordAndIndex : Obligations.DataWriteSetsWordAndIndex := by
  intro s i v
  constructor
  · intro hi
    have hread : dataRead (putWord s i v) i = .ok v :=
      (dataRead_ok _ i v).2 ⟨(addressable_putWord s i v i).2 hi, (wordAt_putWord_same s i v).symm⟩
    exact ⟨putWord s i v, (dataWrite_ok s i v _).2 ⟨hi, rfl⟩, hread, putWord_changedDataIndex s i v,
      fun j hj => wordAt_putWord_of_ne s v hj, putWord_params s i v, putWord_acc s i v, putWord_pc s i v,
      putWord_code s i v, putWord_programSize s i v, putWord_loaded s i v, putWord_draws s i v⟩
  · intro hi
    exact (dataWrite_error s i v _).2 ⟨hi, rfl⟩

end Sys2Proof.Machine
end

section
/-! The opcode byte the Encoder emits (R62): every instruction it emits is an `emitted` one, whose stored
parity bit is the computed one. -/

namespace Sys2Proof

/-- The parity bit of a count, as a byte: the count modulo 2. -/
theorem setWidth_ofBool_mod_two (n : Nat) :
    (BitVec.ofBool (n % 2 == 1)).setWidth 8 = BitVec.ofNat 8 (n % 2) := by
  obtain h | h := Nat.mod_two_eq_zero_or_one n <;> rw [h] <;> rfl

/-- The parity bit is the popcount of the other two fields modulo 2 (R62). -/
theorem encodeOpcode_eq (p : Params) (m : Mnemonic) (mode : Mode) :
    encodeOpcode p m mode =
      fieldsByte (p.index m) mode ||| BitVec.ofNat 8 (popcount (fieldsByte (p.index m) mode) % 2) := by
  rw [encodeOpcode, packFields, parityFor, setWidth_ofBool_mod_two]

/-- The computed parity bit makes the set-bit count even (R62). -/
theorem popcount_encodeOpcode {p : Params} (h : p.Valid) (m : Mnemonic) (mode : Mode) :
    popcount (encodeOpcode p m mode) % 2 = 0 := by
  have hidx : p.index m < 16 := (index_lt h m).trans (by decide)
  have heven := popcount_packFields ⟨p.index m, hidx⟩ mode.bits (parityFor (p.index m) mode)
  rw [ofBits_bits, beq_self_eq_true, beq_iff_eq] at heven
  exact heven

@[simp] theorem mnemonic_emitted (p : Params) (m : Mnemonic) (mode : Mode) (a : Word) :
    (emitted p m mode a).mnemonic = m :=
  mnemonic_ofFields m mode _ a

@[simp] theorem mode_emitted (p : Params) (m : Mnemonic) (mode : Mode) (a : Word) :
    (emitted p m mode a).mode = mode :=
  mode_ofFields m mode _ a

@[simp] theorem parity_emitted (p : Params) (m : Mnemonic) (mode : Mode) (a : Word) :
    (emitted p m mode a).parity = parityFor (p.index m) mode :=
  parity_ofFields m mode _ a

theorem pack_emitted (p : Params) (m : Mnemonic) (mode : Mode) (a : Word) :
    pack p (emitted p m mode a) = encodeOpcode p m mode := by
  rw [pack, mnemonic_emitted, mode_emitted, parity_emitted, encodeOpcode]

namespace Machine

/-- Whatever code line the Encoder reads, its instruction is an `emitted` one (R86). -/
theorem exists_emitted_of_parseCodeLine {p : Params} {line : List Char} {i : Instr}
    (h : parseCodeLine p line = some i) : ∃ m mode a, i = emitted p m mode a := by
  unfold parseCodeLine at h
  split at h
  case h_1 => -- a mnemonic alone
    obtain ⟨m, -, rfl⟩ := Option.map_eq_some_iff.1 h
    exact ⟨m, .direct, 0#32, rfl⟩
  case h_2 => -- a mnemonic and an operand
    split at h
    · exact ⟨_, _, _, (Option.some.inj h).symm⟩
    · cases h
  case h_3 => cases h

/-- Settles O1: the form and the even popcount are those of `encodeOpcode`, and the Encoder emits only
instructions that pack to it. -/
theorem encodedOpcodeHasEvenParity : Obligations.EncodedOpcodeHasEvenParity := by
  intro p m mode hp
  refine ⟨encodeOpcode_eq p m mode, popcount_encodeOpcode hp m mode, fun line i hi => ?_⟩
  obtain ⟨m', mode', a, rfl⟩ := exists_emitted_of_parseCodeLine hi
  rw [pack_emitted, mnemonic_emitted, mode_emitted]

end Machine
end Sys2Proof
end

section
/-! The legal pairs (R70), and the mode check every handler begins with (R104). -/

namespace Sys2Proof

/-- All legal pairs: the rows of `legalModes`, mnemonic by mnemonic. -/
def legalPairs : List (Mnemonic × Mode) := Mnemonic.all.flatMap fun m => (legalModes m).map (m, ·)

theorem mem_legalPairs {m : Mnemonic} {mode : Mode} : (m, mode) ∈ legalPairs ↔ legalMode m mode = true := by
  simp [legalPairs, legalMode, mem_all]

namespace Machine

/-- The handler of every mnemonic checks that mnemonic's own mode before anything else (R104). -/
theorem exists_exec_eq_withMode (i : Instr) (s : State) :
    ∃ k, exec i s = withMode i.mnemonic i.mode s k := by
  cases i <;> exact ⟨_, rfl⟩

/-- An illegal pair raises IllegalInstruction in every state (R70, R104). -/
theorem exec_illegal {i : Instr} (h : legalMode i.mnemonic i.mode = false) (s : State) :
    exec i s = .fault (.illegalInstruction s.pc i.mnemonic i.mode.bits) := by
  obtain ⟨k, hk⟩ := exists_exec_eq_withMode i s
  rw [hk, withMode_illegal h]

/-- Settles O8: the table is `legalPairs` written out, and a handler's mode check refuses every other pair. -/
theorem legalPairsAreTheTable : Obligations.LegalPairsAreTheTable :=
  ⟨fun _ _ => mem_legalPairs.symm, fun s _ h => exec_illegal h s⟩

end Machine
end Sys2Proof
end

section
/-! The dispatch of a fetched instruction (R102, R104): parity decides between its handler and
CorruptInstruction, and a handler past its mode check can raise only DivideByZero or an IndexFault of the
data array. -/

namespace Sys2Proof.Machine

/-! ### Parity decides (R102) -/

/-- A step at a fetched instruction is its handler, or CorruptInstruction when its opcode is odd. -/
theorem step_of_codeFetch {s : State} {i : Instr} (hl : s.loaded = true) (hi : codeFetch s = .ok i) :
    step s = if popcount (pack s.params i) % 2 = 0 then exec i s
      else .fault (.corruptInstruction s.pc (pack s.params i)) := by
  obtain ⟨hfetch, hcell⟩ := (codeFetch_ok s i).1 hi
  exact (stepAt s i hl hcell).1.trans (if_pos hfetch)

/-- Settles O27: the parity of the fetched opcode picks the branch of `step_of_codeFetch`, and by `stepAt` the
host's step call keeps the state of a step that faults (R186). -/
theorem corruptInstructionStopsBeforeDispatch : Obligations.CorruptInstructionStopsBeforeDispatch := by
  intro s i hl hi
  have hstep := step_of_codeFetch hl hi
  obtain ⟨-, hcell⟩ := (codeFetch_ok s i).1 hi
  constructor
  · intro hodd
    have hcorrupt := hstep.trans (if_neg (by omega))
    exact ⟨hcorrupt, (stepAt s i hl hcell).2 _ hcorrupt⟩
  · intro heven
    exact hstep.trans (if_pos heven)

/-! ### Faults past the mode check (R104, R182) -/

/-- An IndexFault of the data array, the fault of an operand read or a store. -/
def IsDataFault (s : State) (f : Fault) : Prop := ∃ x, ¬ Addressable s x ∧ f = .indexFault s.pc .data x

theorem isDataFault_of_dataRead {s : State} {i : Word} {f : Fault} (h : dataRead s i = .error f) :
    IsDataFault s f :=
  ⟨i, (dataRead_error s i f).1 h⟩

theorem isDataFault_of_dataWrite {s : State} {i v : Word} {f : Fault} (h : dataWrite s i v = .error f) :
    IsDataFault s f :=
  ⟨i, (dataWrite_error s i v f).1 h⟩

/-- Only JUMP and JMPZ take INDIRECT2 (R70). -/
theorem legalMode_indirect2 (m : Mnemonic) : legalMode m .indirect2 = true ↔ m = .jump ∨ m = .jmpz := by
  cases m <;> decide

theorem ne_indirect2_of_legalMode {m : Mnemonic} {mode : Mode} (h : legalMode m mode = true)
    (hjump : m ≠ .jump) (hjmpz : m ≠ .jmpz) : mode ≠ .indirect2 := by
  rintro rfl
  exact ((legalMode_indirect2 m).1 h).elim hjump hjmpz

theorem isDataFault_of_operand {m : Mnemonic} {mode : Mode} {arg : Word} {s : State} {f : Fault}
    (hmode : mode ≠ .indirect2) (h : operand m mode arg s = .error f) : IsDataFault s f := by
  cases mode with
  | direct => exact isDataFault_of_dataRead h
  | immediate => cases h
  | indirect =>
    obtain ⟨hx, hf⟩ | ⟨-, hx, hf⟩ := (readThrough_error s arg f).1 h
    · exact ⟨_, hx, hf⟩
    · exact ⟨_, hx, hf⟩
  | indirect2 => exact absurd rfl hmode

theorem isDataFault_of_storeAddress {mode : Mode} {arg : Word} {s : State} {f : Fault}
    (hmode : legalMode .sto mode = true) (h : storeAddress .sto mode arg s = .error f) : IsDataFault s f := by
  cases mode with
  | direct => cases h
  | immediate => exact absurd hmode (by decide)
  | indirect => exact isDataFault_of_dataRead h
  | indirect2 => exact absurd hmode (by decide)

theorem isDataFault_of_jumpTarget {mode : Mode} {arg : Word} {s : State} {f : Fault}
    (h : jumpTarget mode arg s = .error f) : IsDataFault s f := by
  cases mode with
  | direct => cases h
  | immediate => cases h
  | indirect =>
    cases hread : dataRead s arg with
    | ok v => simp [jumpTarget, hread, Except.map] at h
    | error g =>
      obtain rfl : g = f := by simpa [jumpTarget, hread, Except.map] using h
      exact isDataFault_of_dataRead hread
  | indirect2 => exact isDataFault_of_dataRead h

/-- When nothing after a checked access faults, the fault is the access's own. -/
theorem error_of_attempt_fault {α : Type} {r : Except Fault α} {k : α → Result} {f : Fault}
    (hk : ∀ a, k a ≠ .fault f) (h : attempt r k = .fault f) : r = .error f :=
  (attempt_fault.1 h).resolve_right fun ⟨a, _, ha⟩ => hk a ha

theorem continueWith_ne_fault (s : State) (a : Word) (f : Fault) : continueWith s a ≠ .fault f := nofun

theorem continueAt_ne_fault (s : State) (a : Word) (f : Fault) : continueAt s a ≠ .fault f := nofun

/-- The handlers that end in a new accumulator from an operand (LOD, ADD, SUB, MUL and AND). -/
theorem isDataFault_of_attempt_operand {m : Mnemonic} {mode : Mode} {arg : Word} {s : State} {g : Word → Word}
    {f : Fault} (hmode : mode ≠ .indirect2)
    (h : attempt (operand m mode arg s) (fun v => continueWith s (g v)) = .fault f) : IsDataFault s f :=
  isDataFault_of_operand hmode (error_of_attempt_fault (fun v => continueWith_ne_fault s (g v) f) h)

/-- A handler that passed its mode check faults as what comes after the check does. -/
theorem fault_of_withMode_legal {m : Mnemonic} {mode : Mode} {s : State} {k : Result} {f : Fault}
    (hmode : legalMode m mode = true) (h : withMode m mode s k = .fault f) : k = .fault f :=
  (withMode_legal hmode s k).symm.trans h

/-- Past its mode check a handler raises DivideByZero or an IndexFault of the data array, nothing else. -/
theorem fault_of_exec_legal {i : Instr} {s : State} {f : Fault} (hmode : legalMode i.mnemonic i.mode = true)
    (h : exec i s = .fault f) : f = .divideByZero s.pc ∨ IsDataFault s f := by
  cases i with
  | nop mode p => exact absurd (fault_of_withMode_legal hmode h) (continueAt_ne_fault s _ f)
  | not mode p => exact absurd (fault_of_withMode_legal hmode h) (continueWith_ne_fault s _ f)
  | halt mode p => cases fault_of_withMode_legal hmode h
  | lod mode p arg | add mode p arg | sub mode p arg | mul mode p arg | and mode p arg =>
    exact .inr (isDataFault_of_attempt_operand (ne_indirect2_of_legalMode hmode nofun nofun)
      (fault_of_withMode_legal hmode h))
  | sto mode p arg =>
    obtain haddr | ⟨a, -, hwrite⟩ := attempt_fault.1 (fault_of_withMode_legal hmode h)
    · exact .inr (isDataFault_of_storeAddress hmode haddr)
    · exact .inr (isDataFault_of_dataWrite (error_of_attempt_fault (fun t => continueAt_ne_fault t _ f) hwrite))
  | div mode p arg =>
    obtain hread | ⟨v, -, hdiv⟩ := attempt_fault.1 (fault_of_withMode_legal hmode h)
    · exact .inr (isDataFault_of_operand (ne_indirect2_of_legalMode hmode nofun nofun) hread)
    · split at hdiv
      · exact .inl (Host.Outcome.fault.inj hdiv).symm
      · exact absurd hdiv (continueWith_ne_fault s _ f)
  | jump mode p arg | jmpz mode p arg =>
    exact .inr (isDataFault_of_jumpTarget
      (error_of_attempt_fault (fun t => continueAt_ne_fault s _ f) (fault_of_withMode_legal hmode h)))
  | cmpl mode p arg | cmpz mode p arg =>
    exact .inr (isDataFault_of_dataRead
      (error_of_attempt_fault (fun v => continueWith_ne_fault s _ f) (fault_of_withMode_legal hmode h)))

/-- A legal pair never raises IllegalInstruction (R104). -/
theorem exec_legal_ne_illegal {i : Instr} (hmode : legalMode i.mnemonic i.mode = true) (s : State) (pc : Word)
    (m : Mnemonic) (b : BitVec 2) : exec i s ≠ .fault (.illegalInstruction pc m b) := by
  intro h
  obtain hf | ⟨x, -, hf⟩ := fault_of_exec_legal hmode h
  · cases hf
  · cases hf

/-- Settles O28: the mode check is the handler's first act, no later one raises its fault, and parity comes
before both. -/
theorem illegalModeTraps : Obligations.IllegalModeTraps := by
  intro s i
  refine ⟨fun hmode => exec_illegal hmode s, fun hmode => exec_legal_ne_illegal hmode s, fun hmode hl hi => ?_⟩
  rw [step_of_codeFetch hl hi, exec_illegal hmode]

end Sys2Proof.Machine
end

section
/-! NOP and NOT (R120, R121): both take DIRECT only and leave the next instruction's pc. -/

namespace Sys2Proof.Machine

/-- Every mnemonic takes DIRECT (R70). -/
theorem legalMode_direct (m : Mnemonic) : legalMode m .direct = true := by
  cases m <;> decide

/-- An instruction whose only legal mode is DIRECT traps in the other three (R70, R104). -/
theorem exec_illegal_of_ne_direct {i : Instr} (honly : legalModes i.mnemonic = [.direct])
    (hmode : i.mode ≠ .direct) (s : State) :
    exec i s = .fault (.illegalInstruction s.pc i.mnemonic i.mode.bits) := by
  refine exec_illegal ?_ s
  rw [legalMode, honly]
  exact decide_eq_false (mt List.mem_singleton.1 hmode)

/-- `v = 0` as the 1 or 0 that NOT and CMPZ leave (R24). -/
theorem truthWord_isZero (v : Word) : truthWord (isZero v) = if v = 0#32 then 1#32 else 0#32 := by
  simp only [truthWord, isZero, beq_iff_eq]

theorem exec_nop_direct (p : Bool) (s : State) : exec (.nop .direct p) s = continueAt s (nextPc s) :=
  withMode_legal (legalMode_direct .nop) s (continueAt s (nextPc s))

theorem exec_not_direct (p : Bool) (s : State) :
    exec (.not .direct p) s = continueWith s (if s.acc = 0#32 then 1#32 else 0#32) := by
  rw [← truthWord_isZero]
  exact withMode_legal (legalMode_direct .not) s (continueWith s (truthWord (isZero s.acc)))

/-- Settles O11: past the mode check NOP only goes on to the next pc, a mode other than DIRECT fails that
check, and `stepAt` is the prologue. -/
theorem nopAdvances : Obligations.NopAdvances := by
  intro s mode p
  have hillegal (hmode : mode ≠ .direct) :
      exec (.nop mode p) s = .fault (.illegalInstruction s.pc .nop mode.bits) :=
    exec_illegal_of_ne_direct (i := .nop mode p) rfl hmode s
  exact ⟨exec_nop_direct p s, hillegal, by decide, rfl, stepAt s _⟩

/-- Settles O12: past the mode check NOT leaves the truth of `acc = 0`, a mode other than DIRECT fails that
check, and `stepAt` is the prologue. -/
theorem notNegatesLogically : Obligations.NotNegatesLogically := by
  intro s mode p
  have hillegal (hmode : mode ≠ .direct) :
      exec (.not mode p) s = .fault (.illegalInstruction s.pc .not mode.bits) :=
    exec_illegal_of_ne_direct (i := .not mode p) rfl hmode s
  exact ⟨exec_not_direct p s, hillegal, by decide, rfl, stepAt s _⟩

end Sys2Proof.Machine
end

section
/-! LOD and STO (R130, R131): the value operand and the store address decide the outcome of a legal mode, and
the row of R70 says which modes are legal. The lemmas on the operand and on the encoding hold for every
mnemonic that has one. -/

namespace Sys2Proof.Machine

/-! ### The value operand (R106) -/

/-- `Sourced` names the value the operand routing answers. -/
theorem operand_ok_iff_sourced (m : Mnemonic) (mode : Mode) (arg v : Word) (s : State) :
    operand m mode arg s = .ok v ↔ Sourced s mode arg v := by
  cases mode <;> exact operand_ok m _ arg v s

/-- `SourceOutside` names the index the operand routing faults with. -/
theorem operand_error_of_sourceOutside {s : State} {mode : Mode} {arg i : Word} (m : Mnemonic)
    (h : SourceOutside s mode arg i) : operand m mode arg s = .error (.indexFault s.pc .data i) := by
  cases mode with
  | direct =>
    obtain ⟨hout, rfl⟩ := h
    exact (dataRead_error s i _).2 ⟨hout, rfl⟩
  | immediate => exact h.elim
  | indirect =>
    refine (readThrough_error s arg _).2 ?_
    obtain ⟨hout, rfl⟩ | ⟨hin, hout, rfl⟩ := h
    · exact .inl ⟨hout, rfl⟩
    · exact .inr ⟨hin, hout, rfl⟩
  | indirect2 => exact h.elim

theorem Sourced.ne_indirect2 {s : State} {mode : Mode} {arg v : Word} (h : Sourced s mode arg v) :
    mode ≠ .indirect2 := by
  rintro rfl
  exact h

theorem SourceOutside.ne_indirect2 {s : State} {mode : Mode} {arg i : Word} (h : SourceOutside s mode arg i) :
    mode ≠ .indirect2 := by
  rintro rfl
  exact h

/-- A mnemonic with the three value modes in its row of R70 takes every mode but INDIRECT2. -/
theorem legalMode_of_ne_indirect2 {m : Mnemonic} (hrow : legalModes m = [.direct, .immediate, .indirect])
    {mode : Mode} (hmode : mode ≠ .indirect2) : legalMode m mode = true := by
  rw [legalMode, hrow]
  cases mode with
  | direct | immediate | indirect => rfl
  | indirect2 => exact absurd rfl hmode

/-- A handler of a legal mode goes on with the value it sources. -/
theorem withMode_operand_of_sourced {m : Mnemonic} {mode : Mode} {s : State} {arg v : Word}
    (hmode : legalMode m mode = true) (h : Sourced s mode arg v) (k : Word → Result) :
    withMode m mode s (attempt (operand m mode arg s) k) = k v := by
  rw [withMode_legal hmode, (operand_ok_iff_sourced m mode arg v s).2 h, attempt_ok]

/-- A handler of a legal mode raises the fault of its first read out of range. -/
theorem withMode_operand_of_sourceOutside {m : Mnemonic} {mode : Mode} {s : State} {arg i : Word}
    (hmode : legalMode m mode = true) (h : SourceOutside s mode arg i) (k : Word → Result) :
    withMode m mode s (attempt (operand m mode arg s) k) = .fault (.indexFault s.pc .data i) := by
  rw [withMode_legal hmode, operand_error_of_sourceOutside m h, attempt_error]

/-! ### The encoding (R65, R66) -/

/-- An emitted instruction that takes an argument is its opcode, then the bytes of the argument. -/
theorem encode_emitted {m : Mnemonic} (harg : m.takesArg = true) (p : Params) (mode : Mode) (a : Word) :
    encode p (emitted p m mode a) = encodeOpcode p m mode :: argBytes a := by
  rw [encode, pack_emitted, emitted, arg_ofFields, if_pos harg]

/-! ### LOD (R130) -/

/-- Settles O14: LOD has the three value modes, so the operand decides its outcome in each of them, and
INDIRECT2 fails its mode check; `stepAt` is the prologue. -/
theorem lodLoadsOperand : Obligations.LodLoadsOperand := by
  intro s mode p arg
  have hlegal (h : mode ≠ .indirect2) : legalMode .lod mode = true := legalMode_of_ne_indirect2 rfl h
  have hnext (v : Word) (h : Sourced s mode arg v) : exec (.lod mode p arg) s = continueWith s v :=
    withMode_operand_of_sourced (hlegal h.ne_indirect2) h (continueWith s)
  have hfault (i : Word) (h : SourceOutside s mode arg i) :
      exec (.lod mode p arg) s = .fault (.indexFault s.pc .data i) :=
    withMode_operand_of_sourceOutside (hlegal h.ne_indirect2) h (continueWith s)
  have hillegal (h : mode = .indirect2) :
      exec (.lod mode p arg) s = .fault (.illegalInstruction s.pc .lod mode.bits) :=
    exec_illegal (i := .lod mode p arg) (h ▸ rfl) s
  exact ⟨hnext, hfault, hillegal, by decide, by decide, by decide, by decide,
    encode_emitted (m := .lod) rfl s.params mode arg, stepAt s _⟩

/-! ### STO (R131) -/

theorem legalMode_sto (mode : Mode) : legalMode .sto mode = true ↔ mode = .direct ∨ mode = .indirect := by
  cases mode <;> decide

/-- A store whose address is routed is the write of acc there, checked by DataWrite (R109). -/
theorem exec_sto_of_storeAddress_ok {mode : Mode} {arg a : Word} {s : State}
    (h : storeAddress .sto mode arg s = .ok a) (p : Bool) :
    exec (.sto mode p arg) s = attempt (dataWrite s a s.acc) fun t => continueAt t (nextPc s) := by
  have hmode : legalMode .sto mode = true :=
    (legalMode_sto mode).2 (((storeAddress_ok .sto mode arg a s).1 h).imp And.left And.left)
  rw [exec, execSto, withMode_legal hmode, h, attempt_ok]

/-- An INDIRECT store whose argument is out of range faults before any write (R107, R109). -/
theorem exec_sto_indirect_of_not_addressable {arg : Word} {s : State} (h : ¬ Addressable s arg) (p : Bool) :
    exec (.sto .indirect p arg) s = .fault (.indexFault s.pc .data arg) := by
  have haddr : storeAddress .sto .indirect arg s = .error (.indexFault s.pc .data arg) :=
    (dataRead_error s arg _).2 ⟨h, rfl⟩
  rw [exec, execSto, withMode_legal rfl, haddr, attempt_error]

/-- Settles O15: a routed store is `putWord` of acc with the next pc, whose laws give the word, the frame and
the recorded index; a bad address or argument faults, and IMMEDIATE and INDIRECT2 fail the mode check. -/
theorem stoStoresAccumulator : Obligations.StoStoresAccumulator := by
  intro s mode p arg
  refine ⟨fun a ha => ?routed, ?badArgument, fun h => ?illegal, by decide, by decide, by decide, by decide,
    encode_emitted (m := .sto) rfl s.params mode arg, stepAt s _⟩
  case routed =>
    have hexec := exec_sto_of_storeAddress_ok ((storeAddress_ok .sto mode arg a s).2 ha) p
    constructor
    · intro hin
      rw [(dataWrite_ok s a s.acc _).2 ⟨hin, rfl⟩, attempt_ok] at hexec
      exact ⟨{ putWord s a s.acc with pc := nextPc s }, hexec, wordAt_putWord_same s a s.acc,
        fun j hj => wordAt_putWord_of_ne s s.acc hj, putWord_changedDataIndex s a s.acc,
        putWord_acc s a s.acc, rfl⟩
    · intro hout
      rw [hexec, (dataWrite_error s a s.acc _).2 ⟨hout, rfl⟩, attempt_error]
  case badArgument =>
    rintro rfl harg
    exact exec_sto_indirect_of_not_addressable harg p
  case illegal =>
    have hmode : legalMode .sto mode = false := by obtain rfl | rfl := h <;> rfl
    exact exec_illegal (i := .sto mode p arg) hmode s

end Sys2Proof.Machine
end

section
/-! CMPL and CMPZ (R170, R171): both take DIRECT only and leave the truth of a test of `data[arg]`. -/

namespace Sys2Proof.Machine

/-- A handler in DIRECT mode goes on with the data word at its argument. -/
theorem withMode_dataRead_of_addressable {s : State} {arg : Word} (h : Addressable s arg) (m : Mnemonic)
    (k : Word → Result) : withMode m .direct s (attempt (dataRead s arg) k) = k (wordAt s arg) :=
  withMode_operand_of_sourced (mode := .direct) (legalMode_direct m) ⟨h, rfl⟩ k

/-- A handler in DIRECT mode raises the fault of an argument out of range. -/
theorem withMode_dataRead_of_not_addressable {s : State} {arg : Word} (h : ¬ Addressable s arg) (m : Mnemonic)
    (k : Word → Result) :
    withMode m .direct s (attempt (dataRead s arg) k) = .fault (.indexFault s.pc .data arg) :=
  withMode_operand_of_sourceOutside (mode := .direct) (legalMode_direct m) ⟨h, rfl⟩ k

/-- `v < 0`, signed, as the 1 or 0 that CMPL leaves (R24). -/
theorem truthWord_isNegative (v : Word) :
    truthWord (isNegative v) = if v.toInt < 0 then 1#32 else 0#32 := by
  simp only [truthWord, isNegative, decide_eq_true_eq]

theorem exec_cmpl_direct {s : State} {arg : Word} (h : Addressable s arg) (p : Bool) :
    exec (.cmpl .direct p arg) s = continueWith s (if (wordAt s arg).toInt < 0 then 1#32 else 0#32) := by
  rw [exec, execCmpl, withMode_dataRead_of_addressable h, truthWord_isNegative]

theorem exec_cmpz_direct {s : State} {arg : Word} (h : Addressable s arg) (p : Bool) :
    exec (.cmpz .direct p arg) s = continueWith s (if wordAt s arg = 0#32 then 1#32 else 0#32) := by
  rw [exec, execCmpz, withMode_dataRead_of_addressable h, truthWord_isZero]

/-- Settles O23: in DIRECT mode CMPL leaves the truth of `data[arg] < 0` or raises the read's fault, a mode
other than DIRECT fails the mode check, and `stepAt` is the prologue. -/
theorem cmplTestsNegative : Obligations.CmplTestsNegative := by
  intro s mode p arg
  have hfault (h : ¬ Addressable s arg) :
      exec (.cmpl .direct p arg) s = .fault (.indexFault s.pc .data arg) :=
    withMode_dataRead_of_not_addressable h .cmpl _
  have hillegal (hmode : mode ≠ .direct) :
      exec (.cmpl mode p arg) s = .fault (.illegalInstruction s.pc .cmpl mode.bits) :=
    exec_illegal_of_ne_direct (i := .cmpl mode p arg) rfl hmode s
  exact ⟨fun h => exec_cmpl_direct h p, hfault, hillegal, by decide, by decide, by decide, by decide,
    encode_emitted (m := .cmpl) rfl s.params mode arg, stepAt s _⟩

/-- Settles O24: in DIRECT mode CMPZ leaves the truth of `data[arg] = 0` or raises the read's fault, a mode
other than DIRECT fails the mode check, and `stepAt` is the prologue. -/
theorem cmpzTestsZero : Obligations.CmpzTestsZero := by
  intro s mode p arg
  have hfault (h : ¬ Addressable s arg) :
      exec (.cmpz .direct p arg) s = .fault (.indexFault s.pc .data arg) :=
    withMode_dataRead_of_not_addressable h .cmpz _
  have hillegal (hmode : mode ≠ .direct) :
      exec (.cmpz mode p arg) s = .fault (.illegalInstruction s.pc .cmpz mode.bits) :=
    exec_illegal_of_ne_direct (i := .cmpz mode p arg) rfl hmode s
  exact ⟨fun h => exec_cmpz_direct h p, hfault, hillegal, by decide, by decide, by decide, by decide,
    encode_emitted (m := .cmpz) rfl s.params mode arg, stepAt s _⟩

end Sys2Proof.Machine
end

section
/-! The codec round trip (R68, R69): the verdict on an opcode byte says exactly which bits it has, and the
bytes of an instruction and the instruction the decoder reads determine each other. -/

namespace Sys2Proof

/-! ### The opcode byte (R60, R63) -/

/-- The fields of a packed opcode read back, under every valid numbering (R60, R67). -/
theorem pack_fields {p : Params} (hp : p.Valid) (i : Instr) :
    (pack p i).getLsbD 7 = false ∧ ((pack p i).extractLsb' 3 4).toNat = p.index i.mnemonic ∧
      (pack p i).extractLsb' 1 2 = i.mode.bits ∧ (pack p i).getLsbD 0 = i.parity := by
  have hidx : p.index i.mnemonic < 16 := (index_lt hp i.mnemonic).trans (by decide)
  have hfields := packFields_fields ⟨p.index i.mnemonic, hidx⟩ i.mode.bits i.parity
  rwa [ofBits_bits] at hfields

theorem parityOk_iff (p : Params) (i : Instr) : parityOk p i = true ↔ popcount (pack p i) % 2 = 0 :=
  beq_iff_eq

/-- Over any positions, the count of differing bits has the parity of the sum of the two counts. -/
theorem length_filter_xor_mod_two (f g : Nat → Bool) (l : List Nat) :
    (l.filter fun k => f k ^^ g k).length % 2 = ((l.filter f).length + (l.filter g).length) % 2 := by
  induction l with
  | nil => rfl
  | cons k r ih => cases hf : f k <;> cases hg : g k <;> simp [hf, hg] <;> omega

/-- Flipping bits changes the parity of the popcount exactly if an odd number is flipped (R63). -/
theorem popcount_xor_mod_two (a b : Byte) :
    popcount (a ^^^ b) % 2 = (popcount a + popcount b) % 2 := by
  simp only [popcount, BitVec.getLsbD_xor]
  exact length_filter_xor_mod_two a.getLsbD b.getLsbD _

/-! ### The verdicts on a byte (R68, R72) -/

/-- An index beyond the table names no mnemonic (R72). -/
theorem mnemonicAt_eq_none {p : Params} (hp : p.Valid) (k : Nat) : p.mnemonicAt k = none ↔ 14 ≤ k := by
  rw [Params.mnemonicAt, List.getElem?_eq_none_iff, order_length hp]

theorem mnemonicAt_eq_some {p : Params} (hp : p.Valid) (k : Nat) (m : Mnemonic) :
    p.mnemonicAt k = some m ↔ p.index m = k :=
  ⟨index_of_mnemonicAt hp, fun h => h ▸ mnemonicAt_index hp m⟩

theorem ofBits_eq_iff (b : BitVec 2) (mode : Mode) : Mode.ofBits b = mode ↔ mode.bits = b :=
  ⟨fun h => h ▸ bits_ofBits b, fun h => h ▸ ofBits_bits mode⟩

theorem splitByte_eq_none {p : Params} (hp : p.Valid) (b : Byte) :
    splitByte p b = none ↔ 14 ≤ (b.extractLsb' 3 4).toNat := by
  rw [splitByte, Option.map_eq_none_iff, mnemonicAt_eq_none hp]

theorem splitByte_eq_some {p : Params} (hp : p.Valid) (b : Byte) (m : Mnemonic) (mode : Mode) (parity : Bool) :
    splitByte p b = some (m, mode, parity) ↔
      p.index m = (b.extractLsb' 3 4).toNat ∧ mode.bits = b.extractLsb' 1 2 ∧ parity = b.getLsbD 0 := by
  simp only [splitByte, Option.map_eq_some_iff, Prod.mk.injEq, mnemonicAt_eq_some hp, ofBits_eq_iff]
  constructor
  · rintro ⟨_, hidx, rfl, hmode, rfl⟩
    exact ⟨hidx, hmode, rfl⟩
  · rintro ⟨hidx, hmode, rfl⟩
    exact ⟨m, hidx, rfl, hmode, rfl⟩

theorem decodeByte_of_bit7 (p : Params) {b : Byte} (h7 : b.getLsbD 7 = true) : decodeByte p b = .sentinel := by
  rw [decodeByte, if_pos h7]

theorem decodeByte_of_odd (p : Params) {b : Byte} (h7 : b.getLsbD 7 = false) (hodd : popcount b % 2 = 1) :
    decodeByte p b = .corrupt b := by
  rw [decodeByte, if_neg (ne_true_of_eq_false h7), if_pos hodd]

/-- Past the sentinel and parity tests the index decides: one beyond the table is unknown (R72). -/
theorem decodeByte_of_splitByte_none {p : Params} {b : Byte} (h7 : b.getLsbD 7 = false)
    (heven : popcount b % 2 = 0) (h : splitByte p b = none) : decodeByte p b = .unknownMnemonic b := by
  rw [decodeByte, if_neg (ne_true_of_eq_false h7), if_neg (by omega), h]

/-- Past the sentinel and parity tests, the fields of a byte with a mnemonic are its verdict. -/
theorem decodeByte_of_splitByte_some {p : Params} {b : Byte} {m : Mnemonic} {mode : Mode} {parity : Bool}
    (h7 : b.getLsbD 7 = false) (heven : popcount b % 2 = 0) (h : splitByte p b = some (m, mode, parity)) :
    decodeByte p b = .ok m mode parity := by
  rw [decodeByte, if_neg (ne_true_of_eq_false h7), if_neg (by omega), h]

/-- Settles O6: the three tests of `decodeByte`, in its order, decide the class, and the laws of `splitByte`
read the fields of an even byte. -/
theorem verdictOfEveryByte : Obligations.VerdictOfEveryByte := by
  intro p b hp
  cases h7 : b.getLsbD 7 with
  | true => simp [decodeByte_of_bit7 p h7]
  | false =>
    obtain heven | hodd := Nat.mod_two_eq_zero_or_one (popcount b)
    · cases hsplit : splitByte p b with
      | none =>
        rw [decodeByte_of_splitByte_none h7 heven hsplit]
        exact ⟨rfl, rfl, heven, (splitByte_eq_none hp b).1 hsplit⟩
      | some f =>
        rw [decodeByte_of_splitByte_some h7 heven hsplit]
        exact ⟨rfl, heven, (splitByte_eq_some hp b _ _ _).1 hsplit⟩
    · rw [decodeByte_of_odd p h7 hodd]
      exact ⟨rfl, rfl, hodd⟩

/-- The fields of a byte that decodes to an instruction (R68). -/
theorem fields_of_decodeByte_ok {p : Params} (hp : p.Valid) {b : Byte} {m : Mnemonic} {mode : Mode}
    {parity : Bool} (h : decodeByte p b = .ok m mode parity) :
    b.getLsbD 7 = false ∧ popcount b % 2 = 0 ∧ p.index m = (b.extractLsb' 3 4).toNat ∧
      mode.bits = b.extractLsb' 1 2 ∧ parity = b.getLsbD 0 := by
  have hverdict := verdictOfEveryByte p b hp
  rwa [h] at hverdict

/-- A corrupt verdict means odd parity. -/
theorem odd_of_decodeByte_corrupt {p : Params} (hp : p.Valid) {b c : Byte} (h : decodeByte p b = .corrupt c) :
    popcount b % 2 = 1 := by
  have hverdict := verdictOfEveryByte p b hp
  rw [h] at hverdict
  exact hverdict.2.2

/-- The byte of an instruction of even parity decodes to its fields (R69). -/
theorem decodeByte_pack {p : Params} (hp : p.Valid) {i : Instr} (hi : parityOk p i = true) :
    decodeByte p (pack p i) = .ok i.mnemonic i.mode i.parity := by
  obtain ⟨h7, hidx, hmode, hparity⟩ := pack_fields hp i
  exact decodeByte_of_splitByte_some h7 ((parityOk_iff p i).1 hi)
    ((splitByte_eq_some hp _ _ _ _).2 ⟨hidx.symm, hmode.symm, hparity.symm⟩)

/-- A byte that decodes is the packed opcode of the record of its fields, whatever the argument. -/
theorem pack_of_decodeByte_ok {p : Params} (hp : p.Valid) {b : Byte} {m : Mnemonic} {mode : Mode}
    {parity : Bool} (h : decodeByte p b = .ok m mode parity) (a : Word) :
    pack p (Instr.ofFields m mode parity a) = b := by
  obtain ⟨h7, -, hidx, hmode, hparity⟩ := fields_of_decodeByte_ok hp h
  rw [pack, mnemonic_ofFields, mode_ofFields, parity_ofFields, hidx, hparity, ← ofBits_bits mode, hmode]
  exact packFields_of_byte b h7

/-! ### Reading an instruction (R65, R66) -/

theorem decodeInstr_withArg {p : Params} {b : Byte} {m : Mnemonic} {mode : Mode} {parity : Bool}
    (h : decodeByte p b = .ok m mode parity) (harg : m.takesArg = true) (a : Word) (rest : List Byte) :
    decodeInstr p (b :: (argBytes a ++ rest)) = .ok (Instr.ofFields m mode parity a) rest := by
  simp [decodeInstr, h, harg, argBytes, argOfBytes_argBytes]

theorem decodeInstr_withoutArg {p : Params} {b : Byte} {m : Mnemonic} {mode : Mode} {parity : Bool}
    (h : decodeByte p b = .ok m mode parity) (harg : m.takesArg = false) (rest : List Byte) :
    decodeInstr p (b :: rest) = .ok (Instr.ofFields m mode parity 0#32) rest := by
  simp [decodeInstr, h, harg]

/-- Bytes that decode to an instruction are its opcode byte and, if its mnemonic takes one, its argument. -/
theorem decodeInstr_ok {p : Params} {bytes rest : List Byte} {i : Instr} (h : decodeInstr p bytes = .ok i rest) :
    ∃ b m mode parity a, decodeByte p b = .ok m mode parity ∧ i = Instr.ofFields m mode parity a ∧
      bytes = b :: ((if m.takesArg then argBytes a else []) ++ rest) := by
  unfold decodeInstr at h
  split at h
  next => cases h
  next b tail =>
    split at h <;> try cases h
    next m mode parity hb =>
    split_ifs at h with harg
    · split at h
      next b0 b1 b2 b3 rest' =>
        cases h
        refine ⟨b, m, mode, parity, _, hb, rfl, ?_⟩
        rw [if_pos harg, argBytes_argOfBytes]
        rfl
      next => cases h
    · cases h
      exact ⟨b, m, mode, parity, _, hb, rfl, by rw [if_neg harg]; rfl⟩

/-- Settles O4: the packed opcode decodes to the instruction's fields, and the record of the fields and the
argument read back is the instruction. -/
theorem decodeOfEncode : Obligations.DecodeOfEncode := by
  intro p i rest hp hi
  have hbyte := decodeByte_pack hp hi
  have htakes := arg_isSome i
  have hself := ofFields_self i
  cases harg : i.arg with
  | none =>
    rw [harg] at htakes hself
    rw [encode, harg, List.singleton_append, decodeInstr_withoutArg hbyte htakes.symm]
    exact congrArg (Decoded.ok · rest) hself
  | some a =>
    rw [harg] at htakes hself
    rw [encode, harg, List.cons_append, decodeInstr_withArg hbyte htakes.symm]
    exact congrArg (Decoded.ok · rest) hself

/-- Settles O5: the byte read is the packed opcode of the instruction, whose parity the decoder has tested, and
the argument bytes are those of the word read. -/
theorem encodeOfDecode : Obligations.EncodeOfDecode := by
  intro p bytes i rest hp h
  obtain ⟨b, m, mode, parity, a, hb, rfl, rfl⟩ := decodeInstr_ok h
  have hpack := pack_of_decodeByte_ok hp hb a
  obtain ⟨-, heven, -⟩ := fields_of_decodeByte_ok hp hb
  refine ⟨?_, (parityOk_iff p _).2 (hpack ▸ heven)⟩
  rw [encode, hpack, arg_ofFields]
  cases m.takesArg <;> rfl

/-- Settles O2: an index fits its four bits, so the fields read back by `pack_fields`. -/
theorem packedFieldsReadBack : Obligations.PackedFieldsReadBack :=
  fun _ i hp => pack_fields hp i

/-- Settles O7: bit 7 stays clear, and the parity of the flipped opcode is that of the number of flips. -/
theorem oddBitFlipsAreDetected : Obligations.OddBitFlipsAreDetected := by
  intro p i flips hp hi hflips
  obtain ⟨hpack7, -⟩ := pack_fields hp i
  have h7 : (pack p i ^^^ flips).getLsbD 7 = false := by rw [BitVec.getLsbD_xor, hpack7, hflips]; rfl
  have hparity : popcount (pack p i ^^^ flips) % 2 = popcount flips % 2 := by
    rw [popcount_xor_mod_two, Nat.add_mod, (parityOk_iff p i).1 hi, zero_add, Nat.mod_mod]
  constructor
  · intro hodd
    exact decodeByte_of_odd p h7 (hparity.trans hodd)
  · intro heven hcorrupt
    have hodd := odd_of_decodeByte_corrupt hp hcorrupt
    omega

/-- Settles O3: the decoder computes each word. -/
theorem specWordsDecode : Obligations.SpecWordsDecode := by
  unfold Obligations.SpecWordsDecode
  decide

end Sys2Proof
end

section
/-! ADD, SUB, MUL, DIV, AND (R140 to R146) and the jumps (R160 to R163): the operand or the target decides the
outcome of a legal mode, and the row of R70 says which modes are legal. -/

namespace Sys2Proof.Machine

/-! ### ADD, SUB and MUL -/

section Accumulate

variable {m : Mnemonic} {s : State} {mode : Mode} {arg : Word}

/-- An accumulating instruction of the three value modes combines acc with the value it sources. -/
theorem accumulate_of_sourced (hrow : legalModes m = [.direct, .immediate, .indirect]) (f : Word → Word → Word)
    {v : Word} (h : Sourced s mode arg v) : accumulate m f mode arg s = continueWith s (f s.acc v) :=
  withMode_operand_of_sourced (legalMode_of_ne_indirect2 hrow h.ne_indirect2) h _

/-- It raises the fault of its first read out of range. -/
theorem accumulate_of_sourceOutside (hrow : legalModes m = [.direct, .immediate, .indirect])
    (f : Word → Word → Word) {x : Word} (h : SourceOutside s mode arg x) :
    accumulate m f mode arg s = .fault (.indexFault s.pc .data x) :=
  withMode_operand_of_sourceOutside (legalMode_of_ne_indirect2 hrow h.ne_indirect2) h _

end Accumulate

/-- Settles O16: ADD accumulates by the wrapped sum. -/
theorem addWrapsExactSum : Obligations.AddWrapsExactSum := fun s mode p arg =>
  ⟨fun _ h => accumulate_of_sourced rfl add32 h, fun _ h => accumulate_of_sourceOutside rfl add32 h,
    fun h => exec_illegal (i := .add mode p arg) (h ▸ rfl) s⟩

/-- Settles O17: SUB accumulates by the wrapped difference. -/
theorem subWrapsExactDifference : Obligations.SubWrapsExactDifference := fun s mode p arg =>
  ⟨fun _ h => accumulate_of_sourced rfl sub32 h, fun _ h => accumulate_of_sourceOutside rfl sub32 h,
    fun h => exec_illegal (i := .sub mode p arg) (h ▸ rfl) s⟩

/-- Settles O18: MUL accumulates by the wrapped product. -/
theorem mulKeepsLowBits : Obligations.MulKeepsLowBits := fun s mode p arg =>
  ⟨fun _ h => accumulate_of_sourced rfl mul32 h, fun _ h => accumulate_of_sourceOutside rfl mul32 h,
    fun h => exec_illegal (i := .mul mode p arg) (h ▸ rfl) s⟩

/-! ### DIV (R143, R146) -/

theorem isZero_iff (v : Word) : isZero v = true ↔ v = 0#32 := beq_iff_eq

/-- Truncating division never has the sign opposite to that of the product. -/
theorem tdiv_nonneg_of_mul_nonneg {a b : Int} (h : 0 ≤ a * b) : 0 ≤ a.tdiv b := by
  rw [← Int.sign_nonneg_iff, Int.sign_tdiv, ← Int.sign_mul]
  split_ifs
  · exact le_rfl
  · exact Int.sign_nonneg_iff.2 h

theorem tdiv_nonpos_of_mul_nonpos {a b : Int} (h : a * b ≤ 0) : a.tdiv b ≤ 0 := by
  have hneg : 0 ≤ (-a).tdiv b := tdiv_nonneg_of_mul_nonneg (by rw [neg_mul]; omega)
  rw [Int.neg_tdiv] at hneg
  omega

/-- Past its operand DIV tests the divisor. -/
theorem exec_div_of_sourced {s : State} {mode : Mode} {arg v : Word} (h : Sourced s mode arg v) (p : Bool) :
    exec (.div mode p arg) s =
      if isZero v then .fault (.divideByZero s.pc) else continueWith s (div32 s.acc v) :=
  withMode_operand_of_sourced (legalMode_of_ne_indirect2 rfl h.ne_indirect2) h _

/-- The operand read comes before the divisor test (R109). -/
theorem exec_div_of_sourceOutside {s : State} {mode : Mode} {arg x : Word} (h : SourceOutside s mode arg x)
    (p : Bool) : exec (.div mode p arg) s = .fault (.indexFault s.pc .data x) :=
  withMode_operand_of_sourceOutside (legalMode_of_ne_indirect2 rfl h.ne_indirect2) h _

/-- Settles O19: the quotient is `Int.tdiv`, whose magnitude and sign are those asked for. -/
theorem divTruncatesTowardZero : Obligations.DivTruncatesTowardZero := by
  intro s mode p arg
  refine ⟨fun v hv hne => ⟨s.acc.toInt.tdiv v.toInt, Int.natAbs_tdiv _ _, tdiv_nonneg_of_mul_nonneg,
    tdiv_nonpos_of_mul_nonpos, ?_⟩, fun hzero => ?_, fun x hx => exec_div_of_sourceOutside hx p,
    fun h => exec_illegal (i := .div mode p arg) (h ▸ rfl) s⟩
  · exact (exec_div_of_sourced hv p).trans (if_neg (mt (isZero_iff v).1 hne))
  · exact (exec_div_of_sourced hzero p).trans (if_pos rfl)

/-! ### AND (R144) -/

theorem legalMode_and (mode : Mode) : legalMode .and mode = true ↔ mode = .direct ∨ mode = .immediate := by
  cases mode <;> decide

theorem logicalAnd_eq (a v : Word) : logicalAnd a v = if a ≠ 0#32 ∧ v ≠ 0#32 then 1#32 else 0#32 := by
  simp [logicalAnd, truthWord, isZero]

/-- Settles O20: in its two modes AND leaves the truth of both words being non-zero, read whatever acc is. -/
theorem andIsLogical : Obligations.AndIsLogical := by
  intro s mode p arg
  refine ⟨fun v hmode hv => ?_, ?_, fun h => ?_⟩
  · rw [← logicalAnd_eq]
    exact withMode_operand_of_sourced ((legalMode_and mode).2 hmode) hv _
  · rintro rfl hout
    exact withMode_operand_of_sourceOutside (mode := .direct) (legalMode_direct .and) ⟨hout, rfl⟩ _
  · have hmode : legalMode .and mode = false := by obtain rfl | rfl := h <;> rfl
    exact exec_illegal (i := .and mode p arg) hmode s

/-! ### JUMP and JMPZ (R160 to R163) -/

/-- The jumps take every mode (R70). -/
theorem legalMode_jump (mode : Mode) : legalMode .jump mode = true := by cases mode <;> decide

theorem legalMode_jmpz (mode : Mode) : legalMode .jmpz mode = true := by cases mode <;> decide

/-- `Target` names the target the routing answers. -/
theorem jumpTarget_ok_iff_target (s : State) (mode : Mode) (arg t : Word) :
    jumpTarget mode arg s = .ok t ↔ Target s mode arg t := by
  cases mode <;> exact jumpTarget_ok _ arg t s

/-- A target fails only in the modes that read a data word, and then by its argument (R162). -/
theorem jumpTarget_error (s : State) (mode : Mode) (arg : Word) (f : Fault) :
    jumpTarget mode arg s = .error f ↔
      (mode = .indirect ∨ mode = .indirect2) ∧ ¬ Addressable s arg ∧ f = .indexFault s.pc .data arg := by
  rw [← dataRead_error]
  cases mode with
  | direct | immediate => simp [jumpTarget]
  | indirect => cases h : dataRead s arg <;> simp [jumpTarget, h, Except.map]
  | indirect2 => simp [jumpTarget]

theorem exec_jump (mode : Mode) (p : Bool) (arg : Word) (s : State) :
    exec (.jump mode p arg) s = attempt (jumpTarget mode arg s) fun t => continueAt s t :=
  withMode_legal (legalMode_jump mode) s _

theorem exec_jmpz (mode : Mode) (p : Bool) (arg : Word) (s : State) :
    exec (.jmpz mode p arg) s =
      attempt (jumpTarget mode arg s) fun t => continueAt s (if s.acc = 0#32 then t else nextPc s) := by
  simp only [← isZero_iff]
  exact withMode_legal (legalMode_jmpz mode) s _

/-- Settles O21: the pc becomes the target, or its read faults. -/
theorem jumpGoesToTarget : Obligations.JumpGoesToTarget := by
  intro s mode p arg
  constructor
  · intro t ht
    rw [exec_jump, (jumpTarget_ok_iff_target s mode arg t).2 ht]
    rfl
  · intro hmode hout
    rw [exec_jump, (jumpTarget_error s mode arg _).2 ⟨hmode, hout, rfl⟩, attempt_error]

/-- Settles O22: the target is read first, and acc then chooses between it and the next pc. -/
theorem jmpzJumpsOnZero : Obligations.JmpzJumpsOnZero := by
  intro s mode p arg
  constructor
  · intro t ht
    rw [exec_jmpz, (jumpTarget_ok_iff_target s mode arg t).2 ht]
    rfl
  · intro hmode hout
    rw [exec_jmpz, (jumpTarget_error s mode arg _).2 ⟨hmode, hout, rfl⟩, attempt_error]

end Sys2Proof.Machine
end

section
/-! The checks of a step in their order (R100 to R104, R109): loaded, fetch, parity, mode, operand, divisor. -/

namespace Sys2Proof.Machine

/-- A failed fetch decides the step. -/
theorem step_of_codeFetch_error {s : State} {f : Fault} (hl : s.loaded = true) (h : codeFetch s = .error f) :
    step s = .fault f := by
  rw [step_loaded hl, (fetchChecked_error s f).2 (.inl h), attempt_error]

/-- Past fetch and parity the step is the handler. -/
theorem step_of_fetchChecked {s : State} {i : Instr} (hl : s.loaded = true) (h : fetchChecked s = .ok i) :
    step s = exec i s := by
  rw [step_loaded hl, h, attempt_ok]

/-- The pc is out of range on one of three sides (R101). -/
theorem not_fetchable_iff (s : State) :
    ¬ Fetchable s ↔ s.pc.toInt < 0 ∨ (s.programSize : Int) ≤ s.pc.toInt ∨
      (s.params.codeCapacity : Int) ≤ s.pc.toInt := by
  rw [not_and_or, not_and_or, not_le, not_lt, not_lt]

/-- Settles O25: the hypotheses are those of a checked fetch. -/
theorem stepRunsFetchedInstruction : Obligations.StepRunsFetchedInstruction := by
  intro s i hl h0 hsize hcap hcell hparity
  have hfetch : codeFetch s = .ok i := (codeFetch_ok s i).2 ⟨⟨h0, hsize, hcap⟩, hcell⟩
  exact step_of_fetchChecked hl ((fetchChecked_ok s i).2 ⟨hfetch, hparity⟩)

/-- Settles O26: each of the four causes is one of a failed fetch. -/
theorem badPcFaultsAtFetch : Obligations.BadPcFaultsAtFetch := by
  intro s hl hbad
  have hfetch : ¬ Fetchable s ∨ cellAt s s.pc = none := by
    rw [not_fetchable_iff]
    tauto
  exact step_of_codeFetch_error hl ((codeFetch_error s _).2 ⟨hfetch, rfl⟩)

/-- Settles O29: the loaded bit is the first check. -/
theorem unloadedStepIsRefused : Obligations.UnloadedStepIsRefused := by
  intro s hl
  have hstep := step_unloaded hl
  exact ⟨hstep, by rw [hostCall, hostStep, stepOutcome_refused.2 hstep]⟩

/-- Settles O31: one law of the step per link of the order. -/
theorem firstFailingCheckDecides : Obligations.FirstFailingCheckDecides := by
  intro s hl
  refine ⟨fun f hf => step_of_codeFetch_error hl hf, fun i hi hodd => ?_, fun i hi heven hmode => ?_,
    fun mode p arg x hi heven hx => ?_⟩
  · rw [step_loaded hl, (fetchChecked_error s _).2 (.inr ⟨i, hi, hodd, rfl⟩), attempt_error]
  · rw [step_of_fetchChecked hl ((fetchChecked_ok s i).2 ⟨hi, heven⟩), exec_illegal hmode]
  · rw [step_of_fetchChecked hl ((fetchChecked_ok s _).2 ⟨hi, heven⟩), exec_div_of_sourceOutside hx]

end Sys2Proof.Machine
end

section
/-! What an instruction that goes on can change (R21, R22, R28, R29): the accumulator writers acc and the pc,
the control instructions the pc, STO one data word, changedDataIndex and the pc. The frames, the rules of the
whole machine and the invariant of a step all follow from these three cases. -/

namespace Sys2Proof.Machine

/-- The instructions that write the accumulator (R21). -/
def accWriters : List Mnemonic := [.not, .lod, .add, .sub, .mul, .div, .and, .cmpl, .cmpz]

/-- The instructions that change at most the pc. -/
def controlMnemonics : List Mnemonic := [.nop, .halt, .jump, .jmpz]

/-- A handler that ends in a new accumulator leaves everything but acc and the pc. -/
theorem eq_of_withMode_attempt_continueWith {m : Mnemonic} {mode : Mode} {s t : State} {r : Except Fault Word}
    {g : Word → Word} (h : withMode m mode s (attempt r fun v => continueWith s (g v)) = .next t) :
    ∃ a, t = { s with acc := a, pc := nextPc s } := by
  obtain ⟨-, h⟩ := withMode_next.1 h
  obtain ⟨v, -, h⟩ := attempt_next.1 h
  exact ⟨g v, continueWith_next.1 h⟩

theorem eq_of_exec_accumulatorWriter {i : Instr} {s t : State} (hi : i.mnemonic ∈ accWriters)
    (h : exec i s = .next t) : ∃ a, t = { s with acc := a, pc := nextPc s } := by
  cases i with
  | nop | halt | sto | jump | jmpz => simp [Instr.mnemonic, accWriters] at hi
  | not mode p =>
    obtain ⟨-, h⟩ := withMode_next.1 h
    exact ⟨_, continueWith_next.1 h⟩
  | lod | add | sub | mul | and | cmpl | cmpz => exact eq_of_withMode_attempt_continueWith h
  | div mode p arg =>
    obtain ⟨-, h⟩ := withMode_next.1 h
    obtain ⟨v, -, h⟩ := attempt_next.1 h
    split_ifs at h
    · cases h
    · exact ⟨_, continueWith_next.1 h⟩

theorem eq_of_exec_control {i : Instr} {s t : State} (hi : i.mnemonic ∈ controlMnemonics)
    (h : exec i s = .next t) : ∃ pc, t = { s with pc := pc } := by
  cases i with
  | not | lod | sto | add | sub | mul | div | and | cmpl | cmpz => simp [Instr.mnemonic, controlMnemonics] at hi
  | nop mode p =>
    obtain ⟨-, h⟩ := withMode_next.1 h
    exact ⟨_, continueAt_next.1 h⟩
  | halt mode p =>
    obtain ⟨-, h⟩ := withMode_next.1 h
    exact ⟨s.pc, (Host.Outcome.next.inj h).symm⟩
  | jump | jmpz =>
    obtain ⟨-, h⟩ := withMode_next.1 h
    obtain ⟨pc, -, h⟩ := attempt_next.1 h
    exact ⟨_, continueAt_next.1 h⟩

/-- A store that goes on wrote acc at its computed address, which is in range. -/
theorem eq_of_exec_sto {mode : Mode} {p : Bool} {arg : Word} {s t : State} (h : exec (.sto mode p arg) s = .next t) :
    ∃ a, storeAddress .sto mode arg s = .ok a ∧ Addressable s a ∧
      t = { putWord s a s.acc with pc := nextPc s } := by
  obtain ⟨-, h⟩ := withMode_next.1 h
  obtain ⟨a, ha, h⟩ := attempt_next.1 h
  obtain ⟨u, hu, h⟩ := attempt_next.1 h
  obtain ⟨haddr, rfl⟩ := (dataWrite_ok _ _ _ _).1 hu
  exact ⟨a, ha, haddr, continueAt_next.1 h⟩

/-- Everything a step that goes on can be: an accumulator writer, a control instruction or a store. -/
theorem step_next_cases {s t : State} (h : step s = .next t) :
    (∃ i a, codeFetch s = .ok i ∧ i.mnemonic ∈ accWriters ∧ t = { s with acc := a, pc := nextPc s }) ∨
      (∃ pc, t = { s with pc := pc }) ∨
      ∃ mode p arg a, codeFetch s = .ok (.sto mode p arg) ∧ storeAddress .sto mode arg s = .ok a ∧
        Addressable s a ∧ t = { putWord s a s.acc with pc := nextPc s } := by
  obtain ⟨-, i, hi, hexec⟩ := step_next.1 h
  have hfetch := ((fetchChecked_ok s i).1 hi).1
  cases i with
  | not | lod | add | sub | mul | div | and | cmpl | cmpz =>
    obtain ⟨a, ht⟩ := eq_of_exec_accumulatorWriter (by simp [Instr.mnemonic, accWriters]) hexec
    exact .inl ⟨_, a, hfetch, by simp [Instr.mnemonic, accWriters], ht⟩
  | nop | halt | jump | jmpz =>
    exact .inr (.inl (eq_of_exec_control (by simp [Instr.mnemonic, controlMnemonics]) hexec))
  | sto mode p arg =>
    obtain ⟨a, ha, haddr, ht⟩ := eq_of_exec_sto hexec
    exact .inr (.inr ⟨mode, p, arg, a, hfetch, ha, haddr, ht⟩)

/-! ### Frames -/

/-- Settles O32: such an instruction changes acc and the pc alone. -/
theorem accumulatorWritersFrame : Obligations.AccumulatorWritersFrame := by
  intro s t i hi h
  obtain ⟨a, rfl⟩ := eq_of_exec_accumulatorWriter hi h
  exact ⟨fun _ => rfl, rfl, rfl, rfl, rfl, rfl, rfl, rfl, rfl⟩

/-- Settles O33: such an instruction changes the pc alone. -/
theorem controlInstructionsFrame : Obligations.ControlInstructionsFrame := by
  intro s t i hi h
  obtain ⟨pc, rfl⟩ := eq_of_exec_control hi h
  exact ⟨rfl, fun _ => rfl, rfl, rfl, rfl, rfl, rfl, rfl, rfl⟩

/-- Settles O34: a store is `putWord` at its address, whose laws give the frame. -/
theorem stoFrame : Obligations.StoFrame := by
  intro s t mode p arg h
  obtain ⟨a, ha, -, rfl⟩ := eq_of_exec_sto h
  refine ⟨fun b hb j hj => ?_, rfl, rfl, rfl, rfl, rfl, rfl⟩
  obtain rfl : a = b := Except.ok.inj (ha.symm.trans hb)
  exact wordAt_putWord_of_ne s s.acc hj

/-! ### Rules of the whole machine -/

/-- Settles O35: none of the three cases writes one of these fields. -/
theorem noStepWritesCode : Obligations.NoStepWritesCode := by
  intro s t h
  obtain ⟨i, a, -, -, rfl⟩ | ⟨pc, rfl⟩ | ⟨mode, p, arg, a, -, -, -, rfl⟩ := step_next_cases h
  all_goals exact ⟨rfl, rfl, rfl, rfl, rfl⟩

/-- Settles O36: of the three cases only the store writes the data array or changedDataIndex. -/
theorem onlyStoreWritesData : Obligations.OnlyStoreWritesData := by
  intro s t h hne
  obtain ⟨i, a, -, -, rfl⟩ | ⟨pc, rfl⟩ | ⟨mode, p, arg, a, hfetch, ha, haddr, rfl⟩ := step_next_cases h
  · simp at hne
  · simp at hne
  · exact ⟨mode, p, arg, a, hfetch, ha, rfl, haddr⟩

/-- Settles O37: of the three cases only the accumulator writer writes acc. -/
theorem accumulatorWriters : Obligations.AccumulatorWriters := by
  intro s t h hne
  obtain ⟨i, a, hfetch, hi, -⟩ | ⟨pc, rfl⟩ | ⟨mode, p, arg, a, -, -, -, rfl⟩ := step_next_cases h
  · exact ⟨i, hfetch, hi⟩
  · exact absurd rfl hne
  · exact absurd rfl hne

/-! ### The invariant -/

/-- A write in range keeps the invariant. -/
theorem putWord_inv {s : State} (h : s.Inv) {i : Word} (hi : Addressable s i) (v : Word) : (putWord s i v).Inv := by
  obtain ⟨hvalid, hdata, hcode, hsize⟩ := h
  exact ⟨hvalid, putWord_wf hdata hi, hcode, hsize⟩

/-- Settles O40: acc, the pc and changedDataIndex are free in the invariant, and a store keeps the data array
canonical. -/
theorem stepKeepsInvariant : Obligations.StepKeepsInvariant := by
  intro s t hs h
  obtain ⟨i, a, -, -, rfl⟩ | ⟨pc, rfl⟩ | ⟨mode, p, arg, a, -, -, haddr, rfl⟩ := step_next_cases h
  · exact hs
  · exact hs
  · exact putWord_inv hs haddr s.acc

end Sys2Proof.Machine
end

section
/-! Each fault of a handler and its cause (R180, R182): the operand routing that failed names the index, and
DIV names the divisor. -/

namespace Sys2Proof.Machine

/-! ### The index a failed routing names -/

/-- The index `x` of an access through argument `a`, as R182 has it: out of range, and the argument or the word
an INDIRECT operand read there. -/
def IndexThrough (s : State) (mode : Mode) (a x : Word) : Prop :=
  ¬ Addressable s x ∧ mode ≠ .immediate ∧ (x = a ∨ (mode = .indirect ∧ Addressable s a ∧ x = wordAt s a))

theorem operand_error {m : Mnemonic} {mode : Mode} {arg : Word} {s : State} {f : Fault} (hmode : mode ≠ .indirect2)
    (h : operand m mode arg s = .error f) : ∃ x, IndexThrough s mode arg x ∧ f = .indexFault s.pc .data x := by
  cases mode with
  | direct =>
    obtain ⟨hx, hf⟩ := (dataRead_error s arg f).1 h
    exact ⟨arg, ⟨hx, nofun, .inl rfl⟩, hf⟩
  | immediate => cases h
  | indirect =>
    obtain ⟨hx, hf⟩ | ⟨ha, hx, hf⟩ := (readThrough_error s arg f).1 h
    · exact ⟨arg, ⟨hx, nofun, .inl rfl⟩, hf⟩
    · exact ⟨wordAt s arg, ⟨hx, nofun, .inr ⟨rfl, ha, rfl⟩⟩, hf⟩
  | indirect2 => exact absurd rfl hmode

/-- The store's address is its argument, or the word an INDIRECT store read there. -/
theorem indexThrough_of_storeAddress {mode : Mode} {arg a : Word} {s : State}
    (h : storeAddress .sto mode arg s = .ok a) (ha : ¬ Addressable s a) : IndexThrough s mode arg a := by
  obtain ⟨rfl, rfl⟩ | ⟨rfl, harg, rfl⟩ := (storeAddress_ok .sto mode arg a s).1 h
  · exact ⟨ha, nofun, .inl rfl⟩
  · exact ⟨ha, nofun, .inr ⟨rfl, harg, rfl⟩⟩

theorem storeAddress_error {mode : Mode} {arg : Word} {s : State} {f : Fault} (hmode : legalMode .sto mode = true)
    (h : storeAddress .sto mode arg s = .error f) :
    IndexThrough s mode arg arg ∧ f = .indexFault s.pc .data arg := by
  obtain rfl | rfl := (legalMode_sto mode).1 hmode
  · cases h
  · obtain ⟨hx, hf⟩ := (dataRead_error s arg f).1 h
    exact ⟨⟨hx, nofun, .inl rfl⟩, hf⟩

/-! ### The causes -/

/-- DIV sourced the divisor 0 (R143). -/
def DividedByZero (s : State) (i : Instr) : Prop :=
  i.mnemonic = .div ∧ ∃ a, i.arg = some a ∧ Sourced s i.mode a 0#32

/-- The instruction's access named index `x`; a jump reads a data word only at its argument, and none in DIRECT
mode. -/
def AccessedOutside (s : State) (i : Instr) (x : Word) : Prop :=
  ∃ a, i.arg = some a ∧ IndexThrough s i.mode a x ∧
    (i.mnemonic = .jump ∨ i.mnemonic = .jmpz → i.mode ≠ .direct ∧ x = a)

/-- Past its mode check a handler faults for one of two causes. -/
theorem cause_of_exec_legal {i : Instr} {s : State} {f : Fault} (hmode : legalMode i.mnemonic i.mode = true)
    (h : exec i s = .fault f) :
    (f = .divideByZero s.pc ∧ DividedByZero s i) ∨ ∃ x, f = .indexFault s.pc .data x ∧ AccessedOutside s i x := by
  cases i with
  | nop mode p => exact absurd (fault_of_withMode_legal hmode h) (continueAt_ne_fault s _ f)
  | not mode p => exact absurd (fault_of_withMode_legal hmode h) (continueWith_ne_fault s _ f)
  | halt mode p => cases fault_of_withMode_legal hmode h
  | lod mode p arg | add mode p arg | sub mode p arg | mul mode p arg | and mode p arg =>
    have hread := error_of_attempt_fault (fun v => continueWith_ne_fault s _ f) (fault_of_withMode_legal hmode h)
    obtain ⟨x, hx, hf⟩ := operand_error (ne_indirect2_of_legalMode hmode nofun nofun) hread
    exact .inr ⟨x, hf, arg, rfl, hx, nofun⟩
  | sto mode p arg =>
    obtain haddr | ⟨a, ha, hwrite⟩ := attempt_fault.1 (fault_of_withMode_legal hmode h)
    · obtain ⟨hx, hf⟩ := storeAddress_error hmode haddr
      exact .inr ⟨arg, hf, arg, rfl, hx, nofun⟩
    · obtain ⟨hx, hf⟩ := (dataWrite_error s a _ f).1
        (error_of_attempt_fault (fun t => continueAt_ne_fault t _ f) hwrite)
      exact .inr ⟨a, hf, arg, rfl, indexThrough_of_storeAddress ha hx, nofun⟩
  | div mode p arg =>
    obtain hread | ⟨v, hv, hdiv⟩ := attempt_fault.1 (fault_of_withMode_legal hmode h)
    · obtain ⟨x, hx, hf⟩ := operand_error (ne_indirect2_of_legalMode hmode nofun nofun) hread
      exact .inr ⟨x, hf, arg, rfl, hx, nofun⟩
    · split_ifs at hdiv with hzero
      · obtain rfl := (isZero_iff v).1 hzero
        exact .inl ⟨(Host.Outcome.fault.inj hdiv).symm, rfl, arg, rfl, (operand_ok_iff_sourced _ _ _ _ _).1 hv⟩
      · exact absurd hdiv (continueWith_ne_fault s _ f)
  | jump mode p arg | jmpz mode p arg =>
    obtain ⟨hread, hx, hf⟩ := (jumpTarget_error s mode arg f).1
      (error_of_attempt_fault (fun t => continueAt_ne_fault s _ f) (fault_of_withMode_legal hmode h))
    obtain rfl | rfl := hread <;> exact .inr ⟨arg, hf, arg, rfl, ⟨hx, nofun, .inl rfl⟩, fun _ => ⟨nofun, rfl⟩⟩
  | cmpl mode p arg | cmpz mode p arg =>
    obtain ⟨hx, hf⟩ := (dataRead_error s arg f).1
      (error_of_attempt_fault (fun v => continueWith_ne_fault s _ f) (fault_of_withMode_legal hmode h))
    obtain rfl : mode = .direct := by simpa [legalMode, legalModes, Instr.mnemonic, Instr.mode] using hmode
    exact .inr ⟨arg, hf, arg, rfl, ⟨hx, nofun, .inl rfl⟩, nofun⟩

/-! ### No handler refuses -/

theorem attempt_ne_refused {α : Type} {r : Except Fault α} {k : α → Result} {q : Refusal}
    (hk : ∀ a, k a ≠ .refused q) : attempt r k ≠ .refused q :=
  fun h => (attempt_refused.1 h).elim fun a ha => hk a ha.2

theorem withMode_ne_refused {m : Mnemonic} {mode : Mode} {s : State} {k : Result} {q : Refusal}
    (hk : k ≠ .refused q) : withMode m mode s k ≠ .refused q := by
  unfold withMode
  split_ifs
  · exact hk
  · exact nofun

theorem exec_ne_refused (i : Instr) (s : State) (q : Refusal) : exec i s ≠ .refused q := by
  cases i with
  | nop | not | halt => exact withMode_ne_refused nofun
  | lod | add | sub | mul | and | jump | jmpz | cmpl | cmpz =>
    exact withMode_ne_refused (attempt_ne_refused fun _ => nofun)
  | sto => exact withMode_ne_refused (attempt_ne_refused fun _ => attempt_ne_refused fun _ => nofun)
  | div =>
    refine withMode_ne_refused (attempt_ne_refused fun v => ?_)
    split_ifs <;> exact nofun

/-- An instruction that goes on has a legal mode. -/
theorem legalMode_of_exec_next {i : Instr} {s t : State} (h : exec i s = .next t) :
    legalMode i.mnemonic i.mode = true := by
  obtain ⟨k, hk⟩ := exists_exec_eq_withMode i s
  exact (withMode_next.1 (hk.symm.trans h)).1

/-- Settles O30: an illegal mode has its own fault, and past the mode check the cause is the divisor or the
index accessed. -/
theorem faultsOfEachInstruction : Obligations.FaultsOfEachInstruction := by
  intro s i
  cases hexec : exec i s with
  | next t => exact legalMode_of_exec_next hexec
  | refused q => exact exec_ne_refused i s q hexec
  | fault f =>
    cases hmode : legalMode i.mnemonic i.mode with
    | false =>
      obtain rfl := Host.Outcome.fault.inj ((exec_illegal hmode s).symm.trans hexec)
      exact ⟨rfl, rfl, rfl, rfl⟩
    | true =>
      obtain ⟨rfl, hdiv, a, ha, hv⟩ | ⟨x, rfl, a, ha, ⟨hx, himm, hthrough⟩, hjump⟩ := cause_of_exec_legal hmode hexec
      · exact ⟨rfl, hdiv, rfl, a, ha, hv⟩
      · refine ⟨rfl, rfl, hx, rfl, himm, fun hdirect => ⟨fun hm => ?_, fun hm => ?_⟩, a, ha, ?_⟩
        · exact (hjump (.inl hm)).1 hdirect
        · exact (hjump (.inr hm)).1 hdirect
        · by_cases hm : i.mnemonic = .jump ∨ i.mnemonic = .jmpz
          · exact .inl (hjump hm).2
          · obtain ⟨hj, hz⟩ := not_or.1 hm
            exact hthrough.imp_right fun ⟨hind, haddr, hxa⟩ => ⟨hind, hj, hz, haddr, hxa⟩

end Sys2Proof.Machine
end

section
/-! No outcome depends on changedDataIndex (R29): run on two states that differ in that field only, every
shared operation gives the same value, and every way to go on keeps the states equal up to it. -/

namespace Sys2Proof.Machine

/-- The state with another changedDataIndex. -/
def withIndex (s : State) (c : Word) : State := { s with changedDataIndex := c }

/-- The outcomes of one computation on a state and on the state with changedDataIndex `c`: equal but for that
field, which is then the same in both or still `c`. -/
def AgreeButIndex (c : Word) (r q : Result) : Prop :=
  match r, q with
  | .next t, .next u => u = { t with changedDataIndex := u.changedDataIndex } ∧
      (u.changedDataIndex = t.changedDataIndex ∨ u.changedDataIndex = c)
  | .fault f, .fault g => f = g
  | .refused a, .refused b => a = b
  | _, _ => False

/-- States that still differ in changedDataIndex only. -/
theorem agreeButIndex_next (t : State) (c : Word) : AgreeButIndex c (.next t) (.next (withIndex t c)) :=
  ⟨rfl, .inr rfl⟩

/-- The same outcome. -/
theorem agreeButIndex_refl (c : Word) (r : Result) : AgreeButIndex c r r := by
  cases r with
  | next t => exact ⟨rfl, .inl rfl⟩
  | fault f => exact rfl
  | refused q => exact rfl

theorem agreeButIndex_attempt {α : Type} {c : Word} {r : Except Fault α} {k l : α → Result}
    (h : ∀ a, AgreeButIndex c (k a) (l a)) : AgreeButIndex c (attempt r k) (attempt r l) := by
  cases r with
  | ok a => exact h a
  | error f => exact rfl

theorem agreeButIndex_withMode {c : Word} {m : Mnemonic} {mode : Mode} {s : State} {k l : Result}
    (h : AgreeButIndex c k l) : AgreeButIndex c (withMode m mode s k) (withMode m mode (withIndex s c) l) := by
  unfold withMode
  split_ifs
  · exact h
  · exact rfl

/-- Every handler sources its operands without the field; a store overwrites it. -/
theorem agreeButIndex_exec (i : Instr) (s : State) (c : Word) :
    AgreeButIndex c (exec i s) (exec i (withIndex s c)) := by
  cases i with
  | nop | not | halt => exact agreeButIndex_withMode (agreeButIndex_next _ c)
  | lod mode p arg | add mode p arg | sub mode p arg | mul mode p arg | and mode p arg =>
    have hread (m : Mnemonic) : operand m mode arg (withIndex s c) = operand m mode arg s := by cases mode <;> rfl
    refine agreeButIndex_withMode ?_
    rw [hread]
    exact agreeButIndex_attempt fun v => agreeButIndex_next _ c
  | sto mode p arg =>
    have haddr : storeAddress .sto mode arg (withIndex s c) = storeAddress .sto mode arg s := by cases mode <;> rfl
    refine agreeButIndex_withMode ?_
    rw [haddr]
    exact agreeButIndex_attempt fun a => agreeButIndex_refl c _
  | div mode p arg =>
    have hread : operand .div mode arg (withIndex s c) = operand .div mode arg s := by cases mode <;> rfl
    refine agreeButIndex_withMode ?_
    rw [hread]
    refine agreeButIndex_attempt fun v => ?_
    split_ifs
    · exact rfl
    · exact agreeButIndex_next _ c
  | jump mode p arg | jmpz mode p arg =>
    have htarget : jumpTarget mode arg (withIndex s c) = jumpTarget mode arg s := by cases mode <;> rfl
    refine agreeButIndex_withMode ?_
    rw [htarget]
    exact agreeButIndex_attempt fun t => agreeButIndex_next _ c
  | cmpl mode p arg | cmpz mode p arg =>
    exact agreeButIndex_withMode (agreeButIndex_attempt (r := dataRead s arg) fun v => agreeButIndex_next _ c)

/-- Settles O38: the checks before the handler do not read the field either. -/
theorem changedDataIndexIsNeverRead : Obligations.ChangedDataIndexIsNeverRead := by
  intro s c
  change AgreeButIndex c (step s) (step (withIndex s c))
  cases hl : s.loaded with
  | false =>
    rw [step_unloaded hl, step_unloaded (s := withIndex s c) hl]
    exact rfl
  | true =>
    rw [step_loaded hl, step_loaded (s := withIndex s c) hl]
    exact agreeButIndex_attempt (r := fetchChecked s) fun i => agreeButIndex_exec i s c

end Sys2Proof.Machine
end

section
/-! Runs (R122, R184 to R186, R210, R211): what Halted means, one equation of `execute` per outcome of a step,
and the induction over the fuel. -/

namespace Sys2Proof.Machine

/-! ### HALT and the outcomes of a step -/

/-- HALT takes DIRECT only and answers the unchanged state. -/
theorem exec_halt_next (mode : Mode) (p : Bool) (s t : State) :
    exec (.halt mode p) s = .next t ↔ mode = .direct ∧ t = s := by
  have hmode : legalMode .halt mode = true ↔ mode = .direct := by cases mode <;> decide
  rw [exec, execHalt, withMode_next, hmode, Host.Outcome.next.injEq, eq_comm (a := s)]

theorem atHalt_iff (s : State) : atHalt s = true ↔ ∃ mode p, fetchChecked s = .ok (.halt mode p) := by
  unfold atHalt
  cases fetchChecked s with
  | error f => simp
  | ok i => cases i <;> simp [Instr.mnemonic]

theorem stepOutcome_halted {s t : State} : stepOutcome s = .halted t ↔ step s = .next t ∧ atHalt s = true := by
  unfold stepOutcome
  cases step s with
  | next u => cases atHalt s <;> simp
  | fault f => simp
  | refused q => simp

theorem stepOutcome_continued {s t : State} :
    stepOutcome s = .continued t ↔ step s = .next t ∧ atHalt s = false := by
  unfold stepOutcome
  cases step s with
  | next u => cases atHalt s <;> simp
  | fault f => simp
  | refused q => simp

/-- Settles O43: at a HALT the step is its handler, which goes on in DIRECT mode only, with the same state. -/
theorem haltedOnlyByHalt : Obligations.HaltedOnlyByHalt := by
  intro s t
  rw [stepOutcome_halted, step_next, atHalt_iff]
  constructor
  · rintro ⟨⟨hl, i, hi, hexec⟩, mode, p, hhalt⟩
    obtain rfl : i = .halt mode p := Except.ok.inj (hi.symm.trans hhalt)
    obtain ⟨rfl, rfl⟩ := (exec_halt_next mode p s t).1 hexec
    exact ⟨hl, ⟨p, hhalt⟩, rfl⟩
  · rintro ⟨hl, ⟨p, hhalt⟩, rfl⟩
    exact ⟨⟨hl, _, hhalt, (exec_halt_next .direct p t t).2 ⟨rfl, rfl⟩⟩, .direct, p, hhalt⟩

/-! ### One round of `execute` -/

section Round

variable {s t : State} (n : Nat)

theorem execute_of_continued (h : stepOutcome s = .continued t) : execute (n + 1) s = execute n t := by
  rw [execute, h]

theorem execute_of_halted (h : stepOutcome s = .halted t) :
    execute (n + 1) s = { ending := .halted, final := t, notices := [.haltNotification] } := by
  rw [execute, h]
  rfl

theorem execute_of_fault {f : Fault} (h : stepOutcome s = .fault f) :
    execute (n + 1) s =
      { ending := .fault f, final := s, notices := [.haltNotification, .faultSurfaced f] } := by
  rw [execute, h]
  rfl

theorem execute_of_refused {q : Refusal} (h : stepOutcome s = .refused q) :
    execute (n + 1) s = { ending := .refused q, final := s, notices := [] } := by
  rw [execute, h]

end Round

/-- Settles O13: the handler of HALT, its mode check, and the first round of a run at a HALT. -/
theorem haltStopsAndChangesNothing : Obligations.HaltStopsAndChangesNothing := by
  intro s mode p
  refine ⟨(exec_halt_next .direct p s s).2 ⟨rfl, rfl⟩,
    fun hmode => exec_illegal_of_ne_direct (i := .halt mode p) rfl hmode s, fun hl hi => ?_⟩
  have hhalted : stepOutcome s = .halted s := (haltedOnlyByHalt s s).2 ⟨hl, ⟨p, hi⟩, rfl⟩
  exact ⟨hhalted, fun n => execute_of_halted n hhalted⟩

/-- Settles O44: only the last round of a run gives notices, and each ending its own. -/
theorem haltNotifiedOnce : Obligations.HaltNotifiedOnce := by
  intro n s
  induction n, s using execute.induct with
  | case1 s => exact ⟨nofun, nofun, fun _ => rfl⟩
  | case2 s n t h ih => rwa [execute_of_continued n h]
  | case3 s n t h =>
    rw [execute_of_halted n h]
    exact ⟨fun _ => rfl, nofun, nofun⟩
  | case4 s n f h =>
    rw [execute_of_fault n h]
    exact ⟨nofun, fun g hg => by cases hg; rfl, nofun⟩
  | case5 s n q h =>
    rw [execute_of_refused n h]
    exact ⟨nofun, nofun, nofun⟩

/-- Settles O45: more fuel is not used once a round has ended the run. -/
theorem endedRunNeedsNoMoreFuel : Obligations.EndedRunNeedsNoMoreFuel := by
  intro n k s
  induction n, s using execute.induct with
  | case1 s => exact fun hended => absurd rfl hended
  | case2 s n t h ih =>
    rwa [Nat.succ_add, execute_of_continued _ h, execute_of_continued _ h]
  | case3 s n t h =>
    rw [Nat.succ_add, execute_of_halted _ h, execute_of_halted _ h]
    exact fun _ => rfl
  | case4 s n f h =>
    rw [Nat.succ_add, execute_of_fault _ h, execute_of_fault _ h]
    exact fun _ => rfl
  | case5 s n q h =>
    rw [Nat.succ_add, execute_of_refused _ h, execute_of_refused _ h]
    exact fun _ => rfl

/-- The state a faulted run leaves faults the same again (R186). -/
theorem step_final_of_ending_fault (n : Nat) (s : State) (f : Fault) (hend : (execute n s).ending = .fault f) :
    step (execute n s).final = .fault f := by
  induction n, s using execute.induct with
  | case1 s => cases hend
  | case2 s n t h ih =>
    rw [execute_of_continued n h] at hend ⊢
    exact ih hend
  | case3 s n t h =>
    rw [execute_of_halted n h] at hend
    cases hend
  | case4 s n g h =>
    rw [execute_of_fault n h] at hend ⊢
    cases hend
    exact stepOutcome_fault.1 h
  | case5 s n q h =>
    rw [execute_of_refused n h] at hend
    cases hend

/-- The host's step call keeps the state of a step that faults (R186). -/
theorem hostCall_step_of_fault {s : State} {f : Fault} (h : step s = .fault f) : hostCall .step s = (.fault f, s) := by
  rw [hostCall, hostStep, stepOutcome_fault.2 h]

/-- Settles O46: the two rounds of `execute`, and the final state of a faulted run. -/
theorem faultedRunStaysAtFault : Obligations.FaultedRunStaysAtFault := by
  intro n s
  refine ⟨fun f h => ?_, fun t h => execute_of_continued n h, fun f h => ?_⟩
  · rw [execute_of_fault n (stepOutcome_fault.2 h)]
    exact ⟨rfl, rfl⟩
  · have hstep := step_final_of_ending_fault n s f h
    exact ⟨hstep, hostCall_step_of_fault hstep⟩

/-! ### A jump to itself -/

/-- The offset 0 leaves the pc. -/
theorem pcPlus_zero (s : State) : pcPlus s 0#32 = s.pc := by
  rw [pcPlus, BitVec.toInt_zero, add_zero, wrap32, BitVec.ofInt_toInt]

/-- A state whose step continues in the same state runs for ever. -/
theorem runsForever_of_continued_self {s : State} (h : stepOutcome s = .continued s) : RunsForever s := by
  intro n
  induction n with
  | zero => rfl
  | succ n ih => rwa [execute_of_continued n h]

/-- Settles O47: the target of the jump is its own pc, so every round of the run is the same. -/
theorem jumpToSelfRunsForever : Obligations.JumpToSelfRunsForever := by
  intro s p hl hi
  have hstep : step s = .next s := by
    rw [step_of_fetchChecked hl hi, exec_jump, jumpTarget, pcPlus_zero]
    rfl
  have hhalt : atHalt s = false := by simp [atHalt, hi, Instr.mnemonic]
  exact ⟨hstep, runsForever_of_continued_self (stepOutcome_continued.2 ⟨hstep, hhalt⟩)⟩

end Sys2Proof.Machine
end

section
/-! The invariant through every call of the host (R200 to R225), and so through every session. -/

namespace Sys2Proof.Machine

/-- The invariant speaks of the parameters, the two arrays and programSize only. -/
theorem inv_cleared {p : Params} (hp : p.Valid) (n : Nat) : (State.cleared p n).Inv :=
  ⟨hp, memory_nil_wf _, code_nil_wf _, Nat.zero_le _⟩

/-- Settles O39: reset is a cleared state, and its parameters are valid. -/
theorem resetMeetsInvariant : Obligations.ResetMeetsInvariant :=
  inv_cleared (by decide) 0

/-! ### Steps and runs -/

theorem hostStep_inv {s : State} (h : s.Inv) : (hostStep s).2.Inv := by
  unfold hostStep
  cases hout : stepOutcome s with
  | continued t => exact stepKeepsInvariant s t h (stepOutcome_continued.1 hout).1
  | halted t => exact stepKeepsInvariant s t h (stepOutcome_halted.1 hout).1
  | fault f => exact h
  | refused q => exact h

theorem execute_inv (n : Nat) (s : State) (h : s.Inv) : (execute n s).final.Inv := by
  induction n, s using execute.induct with
  | case1 s => exact h
  | case2 s n t hout ih =>
    rw [execute_of_continued n hout]
    exact ih (stepKeepsInvariant s t h (stepOutcome_continued.1 hout).1)
  | case3 s n t hout =>
    rw [execute_of_halted n hout]
    exact stepKeepsInvariant s t h (stepOutcome_halted.1 hout).1
  | case4 s n f hout => rwa [execute_of_fault n hout]
  | case5 s n q hout => rwa [execute_of_refused n hout]

/-! ### Loading -/

theorem unloadedState_inv {s : State} (h : s.Inv) : (unloadedState s).Inv := by
  obtain ⟨hvalid, -⟩ := h
  obtain ⟨hdata, hcode⟩ := unloadedState_wf s
  exact ⟨hvalid, hdata, hcode, min_le_right _ _⟩

/-- Both phases of a load keep the invariant: the code phase writes the code array and programSize, the data
phase the data array. -/
theorem loadImage_inv {s t : State} {bytes : List Byte} (h : s.Inv) (ht : loadImage s bytes = .ok t) : t.Inv := by
  obtain ⟨hvalid, hdata, hcode, -⟩ := h
  unfold loadImage at ht
  split at ht
  next => cases ht
  next c hc =>
    obtain ⟨hcode', hcount⟩ := loadCode_wf s.params _ bytes 0 s.code c hcode (Nat.zero_le _) hc
    obtain ⟨hdata', hframe⟩ := loadData_wf c.rest { s with code := c.code, programSize := c.count } t hdata ht
    rw [hframe] at hdata' ⊢
    exact ⟨hvalid, hdata', hcode', hcount⟩

theorem load_inv (file : ImageFile) {s : State} (h : s.Inv) : (load file s).2.Inv := by
  have hclear : (clear s).Inv := inv_cleared h.1 s.draws
  cases file with
  | missing => exact unloadedState_inv hclear
  | ioError => exact unloadedState_inv hclear
  | bytes bs =>
    cases himage : loadImage (clear s) bs with
    | ok t => simpa only [load, himage] using loadImage_inv hclear himage
    | error e => simpa only [load, himage] using unloadedState_inv hclear

/-! ### Accessors -/

theorem writeReply_inv {s : State} {r : Except Fault State} (h : s.Inv) (hr : ∀ t, r = .ok t → t.Inv) :
    (writeReply s r).2.Inv := by
  cases r with
  | ok t => exact hr t rfl
  | error f => exact h

theorem readReply_inv {α : Type} {s : State} (h : s.Inv) (r : Except Fault α) (k : α → HostReply) :
    (readReply s r k).2.Inv := by
  rwa [readReply_snd]

/-- A ranged data write changes the data array and changedDataIndex only. -/
theorem putWords_frame (s : State) (i : Int) (vs : List Word) :
    putWords s i vs =
      { s with data := (putWords s i vs).data, changedDataIndex := (putWords s i vs).changedDataIndex } := by
  induction s, i, vs using putWords.induct with
  | case1 s i => rfl
  | case2 s i v r ih => exact ih

theorem putWords_params (s : State) (i : Int) (vs : List Word) : (putWords s i vs).params = s.params := by
  rw [putWords_frame]

/-- A ranged code write changes the code array only. -/
theorem putCells_frame (s : State) (i : Int) (xs : List Instr) :
    putCells s i xs = { s with code := (putCells s i xs).code } := by
  induction s, i, xs using putCells.induct with
  | case1 s i => rfl
  | case2 s i x r ih => exact ih

theorem setDataRange_ok {s t : State} {start : Word} {vs : List Word} :
    setDataRange s start vs = .ok t ↔
      firstOutside s.params.dataSize start vs.length = none ∧ t = putWords s start.toInt vs := by
  unfold setDataRange
  cases firstOutside s.params.dataSize start vs.length <;> simp [eq_comm]

theorem setCodeRange_ok {s t : State} {start : Word} {xs : List Instr} :
    setCodeRange s start xs = .ok t ↔
      firstOutside s.params.codeCapacity start xs.length = none ∧ t = putCells s start.toInt xs := by
  unfold setCodeRange
  cases firstOutside s.params.codeCapacity start xs.length <;> simp [eq_comm]

theorem setCode_ok {s t : State} {i : Word} {x : Instr} :
    setCode s i x = .ok t ↔ InCode s i ∧ t = putCell s i x := by
  unfold setCode
  by_cases h : InCode s i
  · rw [if_pos h]
    exact ⟨fun e => ⟨h, (Except.ok.inj e).symm⟩, fun e => e.2 ▸ rfl⟩
  · rw [if_neg h]
    exact ⟨nofun, fun e => absurd e.1 h⟩

theorem setDataRange_inv {s t : State} {start : Word} {vs : List Word} (h : s.Inv)
    (ht : setDataRange s start vs = .ok t) : t.Inv := by
  obtain ⟨hvalid, hdata, hcode, hsize⟩ := h
  obtain ⟨hrange, rfl⟩ := setDataRange_ok.1 ht
  have hdata' := putWords_wf vs s start.toInt hdata (firstOutside_none.1 hrange)
  rw [putWords_frame]
  exact ⟨hvalid, hdata', hcode, hsize⟩

theorem setCodeRange_inv {s t : State} {start : Word} {xs : List Instr} (h : s.Inv)
    (ht : setCodeRange s start xs = .ok t) : t.Inv := by
  obtain ⟨hvalid, hdata, hcode, hsize⟩ := h
  obtain ⟨hrange, rfl⟩ := setCodeRange_ok.1 ht
  have hcode' := putCells_wf xs s start.toInt hcode (firstOutside_none.1 hrange)
  rw [putCells_frame]
  exact ⟨hvalid, hdata, hcode', hsize⟩

theorem setCode_inv {s t : State} {i : Word} {x : Instr} (h : s.Inv) (ht : setCode s i x = .ok t) : t.Inv := by
  obtain ⟨hvalid, hdata, hcode, hsize⟩ := h
  obtain ⟨hi, rfl⟩ := setCode_ok.1 ht
  exact ⟨hvalid, hdata, putCell_wf hcode hi, hsize⟩

theorem dataWrite_inv {s t : State} {i v : Word} (h : s.Inv) (ht : dataWrite s i v = .ok t) : t.Inv := by
  obtain ⟨hi, rfl⟩ := (dataWrite_ok s i v t).1 ht
  exact putWord_inv h hi v

/-- `setProgramSize` takes the sizes of R27 and refuses the others (R223). -/
theorem hostSetProgramSize_of_le {s : State} {n : Int} (h0 : 0 ≤ n) (hcap : n ≤ (s.params.codeCapacity : Int)) :
    hostSetProgramSize s n = (.done, { s with programSize := n.toNat }) := by
  rw [hostSetProgramSize, setProgramSize, if_pos ⟨h0, hcap⟩]

theorem hostSetProgramSize_of_outside {s : State} {n : Int} (h : n < 0 ∨ (s.params.codeCapacity : Int) < n) :
    hostSetProgramSize s n = (.refused (.badProgramSize n), s) := by
  rw [hostSetProgramSize, setProgramSize, if_neg (by omega)]

theorem hostSetProgramSize_inv {s : State} (h : s.Inv) (n : Int) : (hostSetProgramSize s n).2.Inv := by
  by_cases hn : 0 ≤ n ∧ n ≤ (s.params.codeCapacity : Int)
  · obtain ⟨hvalid, hdata, hcode, -⟩ := h
    rw [hostSetProgramSize_of_le hn.1 hn.2]
    exact ⟨hvalid, hdata, hcode, by simpa using hn.2⟩
  · rwa [hostSetProgramSize_of_outside (by omega)]

/-! ### Every call -/

/-- Settles O41: one lemma per kind of call. -/
theorem hostCallsKeepInvariant : Obligations.HostCallsKeepInvariant := by
  intro c s h
  cases c with
  | step => exact hostStep_inv h
  | execute fuel => exact execute_inv fuel s h
  | clear => exact inv_cleared h.1 s.draws
  | load file => exact load_inv file h
  | setPC v => exact h
  | setAccum v => exact h
  | setData i v => exact writeReply_inv h fun t ht => dataWrite_inv h ht
  | setDataRange start vs => exact writeReply_inv h fun t ht => setDataRange_inv h ht
  | setCode i x => exact writeReply_inv h fun t ht => setCode_inv h ht
  | setCodeRange start xs => exact writeReply_inv h fun t ht => setCodeRange_inv h ht
  | setProgramSize n => exact hostSetProgramSize_inv h n
  | getPC | getAccum | getProgramSize | getChangedDataIndex => exact h
  | getData | getDataRange | getCode | getCodeRange => exact readReply_inv h _ _

theorem hostCalls_inv (cs : List HostCall) (s : State) (h : s.Inv) : (hostCalls cs s).Inv := by
  induction cs generalizing s with
  | nil => exact h
  | cons c r ih => exact ih _ (hostCallsKeepInvariant c s h)

/-- Settles O42: the cleared state meets the invariant, and each call keeps it. -/
theorem everySessionMeetsInvariant : Obligations.EverySessionMeetsInvariant :=
  fun _ n cs hp => hostCalls_inv cs _ (inv_cleared hp n)

end Sys2Proof.Machine
end

section
/-! The accessors' own statements (R220 to R224): what a call stores reads back, and what it leaves. -/

namespace Sys2Proof.Machine

/-- Settles O52: the field updates of the setters, and the two branches of `setProgramSize`. -/
theorem registerAccessors : Obligations.RegisterAccessors := by
  intro s v n
  refine ⟨rfl, rfl, fun h0 hcap => ?_, fun hout => hostSetProgramSize_of_outside hout, rfl⟩
  rw [hostCall, hostCall, hostSetProgramSize_of_le h0 hcap]

/-! ### Code cells -/

/-- A host's write of one cell. -/
theorem hostCall_setCode_of_inCode {s : State} {i : Word} (h : InCode s i) (x : Instr) :
    hostCall (.setCode i x) s = (.done, putCell s i x) := by
  rw [hostCall, setCode, if_pos h]
  rfl

theorem hostCall_getCode_of_inCode {s : State} {i : Word} (h : InCode s i) :
    hostCall (.getCode i) s = (.cell (cellAt s i), s) := by
  rw [hostCall, getCode, if_pos h]
  rfl

theorem cellAt_putCell_same (s : State) (i : Word) (x : Instr) : cellAt (putCell s i x) i = some x := by
  rw [cellAt_putCell, if_pos rfl]

/-- Settles O54: `setCode` is `putCell`, which the read and the fetch both see, as neither its bound nor the
fetch's reads the code array. -/
theorem setCodeIsSeenByFetch : Obligations.SetCodeIsSeenByFetch := by
  intro s i x
  constructor
  · intro hi
    refine ⟨putCell s i x, hostCall_setCode_of_inCode hi x, ?_, rfl, fun j hj => ?_, fun hpc hfetch => ?_⟩
    · rw [hostCall_getCode_of_inCode (s := putCell s i x) hi, cellAt_putCell_same]
    · rw [cellAt_putCell, if_neg hj.symm]
    · refine (codeFetch_ok _ _).2 ⟨hfetch, ?_⟩
      rw [putCell_pc, hpc, cellAt_putCell_same]
  · intro hi
    rw [hostCall, setCode, if_neg hi]
    rfl

/-! ### A range of data words (R221) -/

/-- Exact indices in range that have one Int32 are one index. -/
theorem wrap32_injOn_inRange {n : Nat} {i j : Int} (hi : inRange n i = true) (hj : inRange n j = true)
    (h : wrap32 i = wrap32 j) : i = j := by
  rw [← (inRange_toInt hi).1, ← (inRange_toInt hj).1, h]

/-- The frame of a ranged write: a word outside the range. -/
theorem wordAt_putWords_of_ne (s : State) (i : Int) (vs : List Word) (j : Word)
    (h : ∀ k : Nat, k < vs.length → j ≠ wrap32 (i + (k : Int))) : wordAt (putWords s i vs) j = wordAt s j := by
  induction s, i, vs using putWords.induct with
  | case1 s i => rfl
  | case2 s i v r ih =>
    have hhead : j ≠ wrap32 i := by simpa using h 0 (by simp)
    rw [putWords, ih fun k hk => ?tail, wordAt_putWord_of_ne s v hhead]
    case tail =>
      have htail := h (k + 1) (by simpa using hk)
      rwa [Nat.cast_succ, add_comm (k : Int), ← add_assoc] at htail

/-- Read after a ranged write: word `k` of the range is value `k`. -/
theorem wordAt_putWords (s : State) (i : Int) (vs : List Word) (n : Nat)
    (hrange : ∀ k : Nat, k < vs.length → inRange n (i + (k : Int)) = true) (k : Nat) (v : Word)
    (hv : vs[k]? = some v) : wordAt (putWords s i vs) (wrap32 (i + (k : Int))) = v := by
  induction s, i, vs using putWords.induct generalizing k with
  | case1 s i => cases hv
  | case2 s i u r ih =>
    have hcast (j : Nat) : i + ((j + 1 : Nat) : Int) = i + 1 + (j : Int) := by omega
    have htail (j : Nat) (hj : j < r.length) : inRange n (i + 1 + (j : Int)) = true :=
      hcast j ▸ hrange (j + 1) (by simpa using hj)
    cases k with
    | zero =>
      obtain rfl : u = v := by simpa using hv
      rw [putWords, wordAt_putWords_of_ne _ _ _ _ fun j hj hsame => ?later]
      · simp
      case later =>
        have heq := wrap32_injOn_inRange (hrange 0 (by simp)) (htail j hj) hsame
        omega
    | succ k =>
      rw [putWords, hcast]
      exact ih htail k (by simpa using hv)

/-- A ranged write of a word or more records the last index written (R29). -/
theorem changedDataIndex_putWords (s : State) (i : Int) (vs : List Word) (h : vs ≠ []) :
    (putWords s i vs).changedDataIndex = wrap32 (i + (vs.length : Int) - 1) := by
  induction s, i, vs using putWords.induct with
  | case1 s i => exact absurd rfl h
  | case2 s i v r ih =>
    rw [putWords, List.length_cons, Nat.cast_succ]
    cases r with
    | nil => simp [putWords]
    | cons u r =>
      rw [ih (List.cons_ne_nil u r)]
      congr 1
      omega

/-- The words of a range in range, read one by one. -/
theorem hostCall_getDataRange_of_inRange {s : State} {start : Word} {count : Nat}
    (h : firstOutside s.params.dataSize start count = none) :
    hostCall (.getDataRange start count) s =
      (.words ((rangeOf start count).map fun i => wordAt s (wrap32 i)), s) := by
  rw [hostCall, getDataRange, h]
  rfl

/-- Settles O53: a range wholly inside is written by `putWords`, whose laws give each word, the frame and the
recorded index; one that is not fails the check before any write. -/
theorem rangedDataWriteIsAllOrNothing : Obligations.RangedDataWriteIsAllOrNothing := by
  intro s start vs
  constructor
  · intro hrange
    have hinside := firstOutside_none.2 hrange
    have hread := wordAt_putWords s start.toInt vs s.params.dataSize hrange
    refine ⟨putWords s start.toInt vs, ?_, hread, wordAt_putWords_of_ne s start.toInt vs,
      changedDataIndex_putWords s start.toInt vs, ?_⟩
    · rw [hostCall, setDataRange, hinside]
      rfl
    · rw [hostCall_getDataRange_of_inRange (by rwa [putWords_params])]
      congr 2
      refine List.ext_getElem (by simp [rangeOf]) fun k _ hk => ?_
      simpa [rangeOf] using hread k vs[k] (List.getElem?_eq_getElem hk)
  · intro houtside
    obtain ⟨i, hi⟩ := firstOutside_some.2 houtside
    refine ⟨i, ?_⟩
    rw [hostCall, setDataRange, hi]
    rfl

end Sys2Proof.Machine
end

section
/-! Loading (R212 to R214): the code phase takes an encoded program cell by cell, and what comes after it decides
between success and failure; the data phase stores the pairs in order. -/

namespace Sys2Proof.Machine

/-! ### The code phase over an encoded program -/

/-- The code array with a program placed from cell `n` on. -/
def placeFrom (n : Nat) (is : List Instr) (code : List (Nat × Instr)) : List (Nat × Instr) :=
  match is with
  | [] => code
  | i :: r => placeFrom (n + 1) r (cellPut n (some i) code)

/-- A placed program stands from its first cell on; the other cells are as before. -/
theorem cellGet_placeFrom (n : Nat) (is : List Instr) (code : List (Nat × Instr)) (k : Nat) :
    cellGet k (placeFrom n is code) = if n ≤ k then is[k - n]?.or (cellGet k code) else cellGet k code := by
  induction n, is, code using placeFrom.induct with
  | case1 n code => simp [placeFrom]
  | case2 n code i r ih =>
    rw [placeFrom, ih, cellGet_cellPut]
    obtain hlt | rfl | hgt := Nat.lt_trichotomy k n
    · rw [if_neg (by omega), if_neg (by omega), if_neg (by omega)]
    · simp
    · obtain ⟨d, rfl⟩ := Nat.exists_eq_add_of_lt hgt
      have hindex : n + d + 1 - n = d + 1 := by omega
      have hindex' : n + d + 1 - (n + 1) = d := by omega
      rw [if_pos (by omega), if_neg (by omega), if_pos (by omega), hindex, hindex', List.getElem?_cons_succ]

@[simp] theorem encodeCode_nil (p : Params) : encodeCode p [] = [] := rfl

@[simp] theorem encodeCode_cons (p : Params) (i : Instr) (r : List Instr) :
    encodeCode p (i :: r) = encode p i ++ encodeCode p r := by
  simp [encodeCode]

/-- Every instruction takes at least one byte of the image (R65). -/
theorem length_le_length_encodeCode (p : Params) (is : List Instr) : is.length ≤ (encodeCode p is).length := by
  induction is with
  | nil => exact Nat.zero_le _
  | cons i r ih =>
    have hopcode : 1 ≤ (encode p i).length := by simp [encode]
    rw [encodeCode_cons, List.length_append, List.length_cons]
    omega

/-- The code phase places a program that fits and goes on with the bytes after it. -/
theorem loadCode_encodeCode {p : Params} (hp : p.Valid) (is : List Instr) (fuel : Nat) (tail : List Byte) (n : Nat)
    (code : List (Nat × Instr)) (heven : ∀ i ∈ is, parityOk p i = true) (hfits : n + is.length ≤ p.codeCapacity) :
    loadCode p (is.length + fuel) (encodeCode p is ++ tail) n code =
      loadCode p fuel tail (n + is.length) (placeFrom n is code) := by
  induction n, is, code using placeFrom.induct with
  | case1 n code => simp [placeFrom]
  | case2 n code i r ih =>
    obtain ⟨hi, hr⟩ := List.forall_mem_cons.1 heven
    rw [List.length_cons] at hfits
    have hdecode := decodeOfEncode p i (encodeCode p r ++ tail) hp hi
    have hround : loadCode p (r.length + fuel + 1) (encode p i ++ (encodeCode p r ++ tail)) n code =
        loadCode p (r.length + fuel) (encodeCode p r ++ tail) (n + 1) (cellPut n (some i) code) := by
      rw [loadCode, hdecode]
      exact if_pos (by omega)
    rw [List.length_cons, encodeCode_cons, List.append_assoc, Nat.add_right_comm, hround, ih hr (by omega),
      placeFrom, Nat.add_right_comm n 1, Nat.add_assoc n]

/-- In a load the code phase meets the bytes after the program with fuel left. -/
theorem exists_loadCode_image {p : Params} (hp : p.Valid) {is : List Instr}
    (heven : ∀ i ∈ is, parityOk p i = true) (hfits : is.length ≤ p.codeCapacity) (tail : List Byte) :
    ∃ fuel, loadCode p ((encodeCode p is ++ tail).length + 1) (encodeCode p is ++ tail) 0 [] =
      loadCode p (fuel + 1) tail is.length (placeFrom 0 is []) := by
  have hlength := length_le_length_encodeCode p is
  refine ⟨(encodeCode p is).length - is.length + tail.length, ?_⟩
  have hfuel : (encodeCode p is ++ tail).length + 1 =
      is.length + ((encodeCode p is).length - is.length + tail.length + 1) := by
    rw [List.length_append]
    omega
  rw [hfuel, loadCode_encodeCode hp is _ tail 0 [] heven (by omega), Nat.zero_add]

/-! ### The ends of the code phase (R213) -/

section CodeEnd

variable (p : Params) (fuel n : Nat) (code : List (Nat × Instr)) (rest : List Byte)

theorem loadCode_nil : loadCode p (fuel + 1) [] n code = .error .noSentinel := rfl

theorem loadCode_sentinel :
    loadCode p (fuel + 1) (sentinelByte :: rest) n code = .ok { code := code, count := n, rest := rest } := by
  rw [loadCode, decodeInstr, decodeByte_of_bit7 p (by decide)]

variable {p} {b : Byte}

theorem loadCode_corrupt (h : decodeByte p b = .corrupt b) :
    loadCode p (fuel + 1) (b :: rest) n code = .error (.corruptInstruction b) := by
  rw [loadCode, decodeInstr, h]

theorem loadCode_unknownMnemonic (h : decodeByte p b = .unknownMnemonic b) :
    loadCode p (fuel + 1) (b :: rest) n code = .error (.unknownMnemonic b) := by
  rw [loadCode, decodeInstr, h]

end CodeEnd

/-- A load succeeds as its two phases do from the cleared state, or leaves the unloaded state (R214). -/
theorem load_of_loadImage_ok {s t : State} {bytes : List Byte} (h : loadImage (clear s) bytes = .ok t) :
    load (.bytes bytes) s = (.success, t) := by
  rw [load, h]

theorem load_of_loadImage_error {s : State} {bytes : List Byte} {e : LoadFailure}
    (h : loadImage (clear s) bytes = .error e) :
    load (.bytes bytes) s = (.failure e, unloadedState (clear s)) := by
  rw [load, h]

/-- A load whose code phase fails fails for that reason. -/
theorem load_of_loadCode_error {s : State} {bytes : List Byte} {e : LoadFailure}
    (h : loadCode s.params (bytes.length + 1) bytes 0 [] = .error e) :
    (load (.bytes bytes) s).1 = .failure e := by
  have himage : loadImage (clear s) bytes = .error e := by
    rw [loadImage, clear_eq_cleared, cleared_params, cleared_code, h]
  rw [load_of_loadImage_error himage]

/-- Settles O50: the code phase reaches the byte after the program, or the end, with fuel left, and fails
there. -/
theorem badCodeSegmentFailsLoad : Obligations.BadCodeSegmentFailsLoad := by
  intro s is b rest hp heven hfits
  have himage := exists_loadCode_image hp heven hfits
  refine ⟨fun hb => load_of_loadCode_error ?_, fun hb => load_of_loadCode_error ?_, load_of_loadCode_error ?_⟩
  · obtain ⟨fuel, hload⟩ := himage (b :: rest)
    rw [hload, loadCode_corrupt fuel _ _ rest hb]
  · obtain ⟨fuel, hload⟩ := himage (b :: rest)
    rw [hload, loadCode_unknownMnemonic fuel _ _ rest hb]
  · obtain ⟨fuel, hload⟩ := himage []
    rw [List.append_nil] at hload
    rw [hload, loadCode_nil]

/-! ### The data phase over encoded pairs -/

/-- The state after the pairs are stored in order. -/
def storePairs (s : State) (ds : List (Word × Word)) : State := ds.foldl (fun t d => putWord t d.1 d.2) s

theorem storePairs_concat (s : State) (ds : List (Word × Word)) (d : Word × Word) :
    storePairs s (ds ++ [d]) = putWord (storePairs s ds) d.1 d.2 := by
  simp [storePairs]

/-- Storing pairs changes data words and changedDataIndex only. -/
theorem storePairs_frame (s : State) (ds : List (Word × Word)) :
    storePairs s ds =
      { s with data := (storePairs s ds).data, changedDataIndex := (storePairs s ds).changedDataIndex } := by
  induction ds generalizing s with
  | nil => rfl
  | cons d r ih => exact ih (putWord s d.1 d.2)

/-- A word has the value of the last pair for it, or its old one. -/
theorem wordAt_storePairs (s : State) (ds : List (Word × Word)) (j : Word) :
    wordAt (storePairs s ds) j = ((ds.reverse.find? fun d => d.1 == j).map Prod.snd).getD (wordAt s j) := by
  induction ds using List.reverseRecOn with
  | nil => rfl
  | append_singleton ds d ih =>
    rw [storePairs_concat, wordAt_putWord, ih, List.reverse_concat, List.find?_cons]
    by_cases hj : d.1 = j
    · simp [hj]
    · simp [hj, beq_false_of_ne hj]

theorem changedDataIndex_storePairs (s : State) {ds : List (Word × Word)} {d : Word × Word}
    (h : ds.getLast? = some d) : (storePairs s ds).changedDataIndex = d.1 := by
  obtain ⟨r, rfl⟩ := List.getLast?_eq_some_iff.1 h
  rw [storePairs_concat, putWord_changedDataIndex]

theorem loadData_pair {s : State} {i : Word} (hi : Addressable s i) (v : Word) (rest : List Byte) :
    loadData s (argBytes i ++ argBytes v ++ rest) = loadData (putWord s i v) rest := by
  simp [argBytes, loadData, argOfBytes_argBytes, (dataWrite_ok s i v _).2 ⟨hi, rfl⟩]

/-- The data phase stores every pair of the segment the Encoder writes. -/
theorem loadData_encodeData (s : State) (ds : List (Word × Word)) (h : ∀ d ∈ ds, Addressable s d.1) :
    loadData s (encodeData ds) = .ok (storePairs s ds) := by
  induction ds generalizing s with
  | nil => rfl
  | cons d r ih =>
    obtain ⟨hd, hr⟩ := List.forall_mem_cons.1 h
    have hcons : encodeData (d :: r) = argBytes d.1 ++ argBytes d.2 ++ encodeData r := by simp [encodeData]
    rw [hcons, loadData_pair hd]
    exact ih _ fun e he => (addressable_putWord s d.1 d.2 e.1).2 (hr e he)

/-! ### Both phases -/

/-- The cleared state with a program in its cells. -/
def withProgram (s : State) (is : List Instr) : State :=
  { clear s with code := placeFrom 0 is [], programSize := is.length }

/-- An image the Encoder writes of a program and pairs that fit loads to them. -/
theorem load_encodeImage {s : State} (hp : s.params.Valid) {is : List Instr} {ds : List (Word × Word)}
    (heven : ∀ i ∈ is, parityOk s.params i = true) (hfits : is.length ≤ s.params.codeCapacity)
    (hpairs : ∀ d ∈ ds, Addressable s d.1) :
    load (.bytes (encodeImage s.params is ds)) s = (.success, storePairs (withProgram s is) ds) := by
  obtain ⟨fuel, hcode⟩ := exists_loadCode_image hp heven hfits (sentinelByte :: encodeData ds)
  rw [loadCode_sentinel] at hcode
  have himage : loadImage (clear s) (encodeImage s.params is ds) = .ok (storePairs (withProgram s is) ds) := by
    rw [loadImage, clear_eq_cleared, cleared_params, cleared_code, encodeImage, hcode]
    exact loadData_encodeData (withProgram s is) ds hpairs
  exact load_of_loadImage_ok himage

/-- Settles O49: the loaded state is the program in its cells with the pairs stored, each by its own law. -/
theorem encodedImageLoads : Obligations.EncodedImageLoads := by
  intro s is ds hp heven hfits hpairs
  have hwords (j : Word) := wordAt_storePairs (withProgram s is) ds j
  have hindex (d : Word × Word) := changedDataIndex_storePairs (withProgram s is) (ds := ds) (d := d)
  have hcells (k : Nat) : cellGet k (placeFrom 0 is []) = is[k]? := by simp [cellGet_placeFrom]
  refine ⟨_, load_encodeImage hp heven hfits hpairs, ?_⟩
  rw [storePairs_frame] at hwords hindex ⊢
  exact ⟨hcells, rfl, rfl, rfl, rfl, rfl, hwords, hindex⟩

/-! ### Failed loads -/

/-- A load that fails leaves the unloaded state of its start with `clear()` (R214). -/
theorem load_of_failure {s : State} {file : ImageFile} {e : LoadFailure} (h : (load file s).1 = .failure e) :
    (load file s).2 = unloadedState (clear s) := by
  cases file with
  | missing => rfl
  | ioError => rfl
  | bytes bs =>
    cases himage : loadImage (clear s) bs with
    | ok t =>
      rw [load_of_loadImage_ok himage] at h
      cases h
    | error e => rw [load_of_loadImage_error himage]

/-- A cleared machine has no program to fetch from (R200). -/
theorem step_cleared (p : Params) (n : Nat) : step (State.cleared p n) = .fault (.indexFault 0#32 .code 0#32) :=
  badPcFaultsAtFetch (State.cleared p n) rfl (.inr (.inl le_rfl))

/-- Settles O51: a failed load leaves the loaded bit 0, the first check of a step, and `clear` an empty
program. -/
theorem failedLoadRefusesSteps : Obligations.FailedLoadRefusesSteps := by
  intro s file
  refine ⟨fun h => h ▸ rfl, fun h => h ▸ rfl, fun e h => ?_⟩
  rw [load_of_failure h]
  exact ⟨rfl, step_unloaded rfl, step_cleared _ _⟩

end Sys2Proof.Machine
end

section
/-! Hex literals (R79, R83, decisions D20 and D21): the rendering of a word is digits of its magnitude behind a
sign, and the parser reads them back. -/

namespace Sys2Proof.Machine

/-! ### Digits -/

theorem hexValue_hexDigit {d : Nat} (h : d < 16) : hexValue (hexDigit d) = some d := by
  have hall : ∀ d : Fin 16, hexValue (hexDigit d) = some d.val := by decide
  exact hall ⟨d, h⟩

/-- Reading digits after others goes on from their number. -/
theorem hexNumber_append (n : Nat) (ds es : List Char) :
    hexNumber n (ds ++ es) = (hexNumber n ds).bind fun m => hexNumber m es := by
  induction ds generalizing n with
  | nil => rfl
  | cons d r ih =>
    cases h : hexValue d with
    | none => simp [hexNumber, h]
    | some v => simp [hexNumber, h, ih]

theorem hexNumber_hexDigit (n : Nat) {d : Nat} (h : d < 16) : hexNumber n [hexDigit d] = some (16 * n + d) := by
  simp [hexNumber, hexValue_hexDigit h]

/-- The digits of a number that fits read back to it. -/
theorem hexNumber_hexDigits (fuel n : Nat) (h : n < 16 ^ (fuel + 1)) : hexNumber 0 (hexDigits fuel n) = some n := by
  induction fuel generalizing n with
  | zero =>
    rw [hexDigits, hexNumber_hexDigit 0 (Nat.mod_lt n (by decide)), Nat.mod_eq_of_lt (by simpa using h)]
    simp
  | succ k ih =>
    rw [hexDigits]
    split_ifs with hsmall
    · rw [hexNumber_hexDigit 0 hsmall]
      simp
    · have hrest : n / 16 < 16 ^ (k + 1) := Nat.div_lt_of_lt_mul (by rwa [← Nat.pow_succ'])
      rw [hexNumber_append, ih _ hrest, Option.bind_some, hexNumber_hexDigit _ (Nat.mod_lt n (by decide)),
        Nat.div_add_mod]

/-- A number below 16, and 0 too, still has a digit. -/
theorem hexDigits_ne_nil (fuel n : Nat) : hexDigits fuel n ≠ [] := by
  cases fuel with
  | zero => simp [hexDigits]
  | succ k =>
    rw [hexDigits]
    split_ifs <;> simp

theorem exists_digit_of_mem_hexDigits {fuel n : Nat} {c : Char} (h : c ∈ hexDigits fuel n) :
    ∃ d < 16, c = hexDigit d := by
  induction fuel generalizing n with
  | zero => exact ⟨n % 16, Nat.mod_lt n (by decide), by simpa [hexDigits] using h⟩
  | succ k ih =>
    rw [hexDigits] at h
    split_ifs at h with hsmall
    · exact ⟨n, hsmall, by simpa using h⟩
    · obtain h | h := List.mem_append.1 h
      · exact ih h
      · exact ⟨n % 16, Nat.mod_lt n (by decide), by simpa using h⟩

/-- A character that is no hex digit stands nowhere in a rendering of digits. -/
theorem ne_of_mem_hexDigits {fuel n : Nat} {c x : Char} (h : c ∈ hexDigits fuel n) (hx : hexValue x = none) :
    c ≠ x := by
  obtain ⟨d, hd, rfl⟩ := exists_digit_of_mem_hexDigits h
  rintro rfl
  rw [hexValue_hexDigit hd] at hx
  cases hx

/-! ### Literals -/

theorem hexMagnitude_hexDigits {limit n : Nat} (hlimit : n ≤ limit) (h : n < 16 ^ 8) :
    hexMagnitude limit (hexDigits 7 n) = some n := by
  rw [hexMagnitude, if_neg (hexDigits_ne_nil 7 n), hexNumber_hexDigits 7 n h]
  exact if_pos hlimit

theorem parseHex_neg (ds : List Char) :
    parseHex ('-' :: ds) = (hexMagnitude 0x80000000 ds).map fun (n : Nat) => wrap32 (-(n : Int)) := rfl

/-- A literal that begins with a digit has no sign. -/
theorem parseHex_hexDigits (n : Nat) :
    parseHex (hexDigits 7 n) = (hexMagnitude 0x7FFFFFFF (hexDigits 7 n)).map fun (n : Nat) => wrap32 (n : Int) := by
  rw [parseHex]
  intro ds hds
  exact ne_of_mem_hexDigits (hds ▸ List.mem_cons_self) (by decide) rfl

theorem wrap32_toInt (v : Word) : wrap32 v.toInt = v := BitVec.ofInt_toInt

/-- Settles O55: the magnitude fits in eight digits and under the limit of its sign. -/
theorem hexRenderingParsesBack : Obligations.HexRenderingParsesBack := by
  intro v
  have hlow : -2 ^ 31 ≤ v.toInt := BitVec.le_toInt v
  have hhigh : v.toInt < 2 ^ 31 := BitVec.toInt_lt
  rw [renderHex]
  split_ifs with hneg
  · rw [parseHex_neg, hexMagnitude_hexDigits (by omega) (by omega), Option.map_some,
      Int.toNat_of_nonneg (by omega), neg_neg, wrap32_toInt]
  · rw [parseHex_hexDigits, hexMagnitude_hexDigits (by omega) (by omega), Option.map_some,
      Int.toNat_of_nonneg (by omega), wrap32_toInt]

/-- A rendered word is not empty, and begins with a sign or a digit. -/
theorem renderHex_ne_nil (v : Word) : renderHex v ≠ [] := by
  rw [renderHex]
  split_ifs
  · exact List.cons_ne_nil _ _
  · exact hexDigits_ne_nil 7 _

theorem ne_of_mem_renderHex {v : Word} {c x : Char} (h : c ∈ renderHex v) (hx : hexValue x = none) (hsign : x ≠ '-') :
    c ≠ x := by
  rw [renderHex] at h
  split_ifs at h
  · obtain rfl | h := List.mem_cons.1 h
    · exact hsign.symm
    · exact ne_of_mem_hexDigits h hx
  · exact ne_of_mem_hexDigits h hx

end Sys2Proof.Machine
end

section
/-! The Validator's diagnostics (R84, R85): their line numbers rise from 1. -/

namespace Sys2Proof.Machine

/-- Validation from line `n` on flags no earlier line. -/
theorem le_of_mem_diagnose {kw : List Char} {seen : Bool} {n : Nat} {lines : List (List Char)}
    {d : Nat × DiagnosticKind} (h : d ∈ diagnose kw seen n lines) : n ≤ d.1 := by
  induction seen, n, lines using diagnose.induct kw with
  | case1 seen n => cases h
  | case2 seen n l r k hk ih =>
    rw [diagnose, hk] at h
    obtain rfl | h := List.mem_cons.1 h
    · exact le_rfl
    · exact (Nat.le_succ n).trans (ih h)
  | case3 seen n l r hk ih =>
    rw [diagnose, hk] at h
    exact (Nat.le_succ n).trans (ih h)

theorem diagnose_pairwise (kw : List Char) (seen : Bool) (n : Nat) (lines : List (List Char)) :
    (diagnose kw seen n lines).Pairwise fun a b => a.1 < b.1 := by
  induction seen, n, lines using diagnose.induct kw with
  | case1 seen n => exact List.Pairwise.nil
  | case2 seen n l r k hk ih =>
    rw [diagnose, hk]
    exact List.pairwise_cons.2 ⟨fun d hd => le_of_mem_diagnose hd, ih⟩
  | case3 seen n l r hk ih =>
    rw [diagnose, hk]
    exact ih

/-- The smallest line of rising diagnostics is the first one's. -/
theorem min?_line_of_pairwise {d : Nat × DiagnosticKind} {r : List (Nat × DiagnosticKind)}
    (h : (d :: r).Pairwise fun a b => a.1 < b.1) : ((d :: r).map Prod.fst).min? = some d.1 := by
  have hmin : ((d :: r).map Prod.fst).Pairwise fun a b => min a b = a :=
    List.pairwise_map.2 (h.imp fun hab => min_eq_left hab.le)
  exact List.min?_eq_head? hmin

theorem assemble_of_diagnostics {kw : List Char} {lines : List (List Char)} (h : validate kw lines ≠ [])
    (p : Params) (writable : Bool) : assemble p kw writable lines = .diagnostics (validate kw lines) := by
  rw [assemble, if_neg h]

/-- Without a diagnostic a file that can be written gets the image of the two segments (R86). -/
theorem assemble_of_valid {kw : List Char} {lines : List (List Char)} (h : validate kw lines = []) (p : Params) :
    assemble p kw true lines = .image (encodeImage p (codeOf p kw lines) (dataOf kw lines)) := by
  rw [assemble, if_pos h]
  rfl

/-- Settles O57: the lines rise from 1, so the smallest is the first. -/
theorem statusIsSmallestFlaggedLine : Obligations.StatusIsSmallestFlaggedLine := by
  intro p kw lines
  have hrising : (validate kw lines).Pairwise fun a b => a.1 < b.1 := diagnose_pairwise kw false 1 _
  refine ⟨hrising, fun d r h => ?_, fun h => ?_⟩
  · have hfirst : d ∈ validate kw lines := h ▸ List.mem_cons_self
    rw [assemble_of_diagnostics (List.ne_nil_of_mem hfirst), h]
    exact ⟨rfl, min?_line_of_pairwise (h ▸ hrising), le_of_mem_diagnose hfirst⟩
  · rw [assemble_of_valid h]
    rfl

end Sys2Proof.Machine
end

section
/-! The text form of a program assembles to its image (R77, R81, R85, R86): a rendered line splits into the tokens
it was made of, so the Validator passes it and the Encoder reads its instruction back. -/

namespace Sys2Proof.Machine

/-! ### Tokens (R81, D26) -/

/-- A token: a word without white space. -/
def IsWord (w : List Char) : Prop := w ≠ [] ∧ ∀ c ∈ w, isSpace c = false

theorem wordAndTokens_append {w : List Char} (h : ∀ c ∈ w, isSpace c = false) (rest : List Char) :
    wordAndTokens (w ++ rest) = (w ++ (wordAndTokens rest).1, (wordAndTokens rest).2) := by
  induction w with
  | nil => rfl
  | cons c r ih =>
    obtain ⟨hc, hr⟩ := List.forall_mem_cons.1 h
    rw [List.cons_append, wordAndTokens, if_neg (ne_true_of_eq_false hc), ih hr]
    rfl

/-- A leading space separates: the tokens after it are those of the rest. -/
theorem wordAndTokens_space (rest : List Char) : wordAndTokens (' ' :: rest) = ([], tokens rest) := rfl

theorem tokens_space (rest : List Char) : tokens (' ' :: rest) = tokens rest := rfl

theorem tokens_word_append {w : List Char} (hw : IsWord w) (rest : List Char)
    (hrest : (wordAndTokens rest).1 = []) : tokens (w ++ rest) = w :: (wordAndTokens rest).2 := by
  obtain ⟨hne, hspace⟩ := hw
  rw [tokens, wordAndTokens_append hspace, hrest, List.append_nil, closeToken, if_neg hne]

theorem tokens_word {w : List Char} (hw : IsWord w) : tokens w = [w] := by
  have h := tokens_word_append hw [] rfl
  rwa [List.append_nil] at h

theorem tokens_two_words {w o : List Char} (hw : IsWord w) (ho : IsWord o) :
    tokens (w ++ ' ' :: ' ' :: o) = [w, o] := by
  rw [tokens_word_append hw _ rfl, wordAndTokens_space, tokens_space, tokens_word ho]

/-! ### The tokens of a rendered instruction -/

theorem isWord_mnemonicName (m : Mnemonic) : IsWord (mnemonicName m) := by
  cases m <;> simp [IsWord, mnemonicName, isSpace]

theorem mnemonicOf_mnemonicName (m : Mnemonic) : mnemonicOf (mnemonicName m) = some m := by
  cases m <;> decide

theorem map_upper_mnemonicName (m : Mnemonic) : (mnemonicName m).map upper = mnemonicName m := by
  cases m <;> decide

theorem isSpace_iff (c : Char) : isSpace c = true ↔ c = ' ' ∨ c = '\t' := by
  simp [isSpace]

theorem isSpace_of_mem_renderHex {v : Word} {c : Char} (h : c ∈ renderHex v) : isSpace c = false := by
  rw [Bool.eq_false_iff, Ne, isSpace_iff, not_or]
  exact ⟨ne_of_mem_renderHex h (by decide) (by decide), ne_of_mem_renderHex h (by decide) (by decide)⟩

theorem isWord_operand (mode : Mode) (a : Word) : IsWord (modePrefix mode ++ renderHex a) := by
  refine ⟨List.append_ne_nil_of_right_ne_nil _ (renderHex_ne_nil a), fun c hc => ?_⟩
  obtain hc | hc := List.mem_append.1 hc
  · have hsigns : ∀ c ∈ modePrefix mode, isSpace c = false := by cases mode <;> simp [modePrefix, isSpace]
    exact hsigns c hc
  · exact isSpace_of_mem_renderHex hc

/-- The mode sign of an operand is split off again: a rendered word begins with none of the signs. -/
theorem splitPrefix_operand (mode : Mode) (a : Word) :
    splitPrefix (modePrefix mode ++ renderHex a) = (mode, renderHex a) := by
  cases mode with
  | immediate | indirect | indirect2 => rfl
  | direct =>
    have hmem (c : Char) (r : List Char) (h : modePrefix .direct ++ renderHex a = c :: r) : c ∈ renderHex a :=
      show c ∈ modePrefix .direct ++ renderHex a from h ▸ List.mem_cons_self
    rw [splitPrefix]
    · rfl
    all_goals exact fun r h => ne_of_mem_renderHex (hmem _ r h) (by decide) (by decide) rfl

/-- The tokens after the mnemonic of a rendered instruction: its operand, if it has one. -/
def operandTokens (i : Instr) : List (List Char) :=
  match i.arg with
  | none => []
  | some a => [modePrefix i.mode ++ renderHex a]

theorem tokens_renderText (i : Instr) : tokens (renderText i) = mnemonicName i.mnemonic :: operandTokens i := by
  rw [renderText, operandTokens]
  cases i.arg with
  | none => exact tokens_word (isWord_mnemonicName _)
  | some a => exact tokens_two_words (isWord_mnemonicName _) (isWord_operand _ a)

/-- A rendered instruction begins with its mnemonic, so with no white space. -/
theorem exists_head_renderText (i : Instr) : ∃ c r, renderText i = c :: r ∧ isSpace c = false := by
  obtain ⟨hne, hspace⟩ := isWord_mnemonicName i.mnemonic
  obtain ⟨c, w, hw⟩ := List.exists_cons_of_ne_nil hne
  have hc : isSpace c = false := hspace c (hw ▸ List.mem_cons_self)
  rw [renderText, hw]
  cases i.arg with
  | none => exact ⟨c, _, rfl, hc⟩
  | some a => exact ⟨c, _, rfl, hc⟩

/-! ### The Validator passes rendered lines -/

theorem isBlankLine_renderText (i : Instr) : isBlankLine (renderText i) = false := by
  obtain ⟨c, r, hline, hc⟩ := exists_head_renderText i
  rw [isBlankLine, hline, List.all_cons, hc, Bool.false_and]

/-- A valid keyword is no mnemonic in any case, so no rendered line is a separator candidate (R7, D23). -/
theorem isCandidate_renderText {kw : List Char} (hkw : validKeyword kw = true) (i : Instr) :
    isCandidate kw (renderText i) = false := by
  have hnone : mnemonicOf (kw.map upper) = none := by simpa [validKeyword] using (Bool.and_eq_true_iff.1 hkw).2
  rw [isCandidate, tokens_renderText]
  refine beq_eq_false_iff_ne.2 fun h => ?_
  rw [map_upper_mnemonicName] at h
  rw [← h, mnemonicOf_mnemonicName] at hnone
  cases hnone

theorem codeDiagnostic_renderText (i : Instr) : codeDiagnostic (renderText i) = none := by
  have hparse (a : Word) : parseHex (renderHex a) = some a := hexRenderingParsesBack a
  have htakes := arg_isSome i
  rw [codeDiagnostic, tokens_renderText, operandTokens]
  simp only [mnemonicOf_mnemonicName]
  cases harg : i.arg with
  | none =>
    rw [harg] at htakes
    simp [operandDiagnostic, ← htakes]
  | some a =>
    rw [harg] at htakes
    simp [operandDiagnostic, ← htakes, splitPrefix_operand, hparse]

theorem lineDiagnostic_renderText {kw : List Char} (hkw : validKeyword kw = true) (i : Instr) :
    lineDiagnostic kw false (renderText i) = none := by
  have hindent : ((renderText i).head?.map isSpace).getD false = false := by
    obtain ⟨c, r, hline, hc⟩ := exists_head_renderText i
    simp [hline, hc]
  simp [lineDiagnostic, isBlankLine_renderText, hindent, isCandidate_renderText hkw, codeDiagnostic_renderText]

theorem diagnose_renderText {kw : List Char} (hkw : validKeyword kw = true) (is : List Instr) (n : Nat) :
    diagnose kw false n (is.map renderText) = [] := by
  induction is generalizing n with
  | nil => rfl
  | cons i r ih =>
    rw [List.map_cons, diagnose, lineDiagnostic_renderText hkw, isCandidate_renderText hkw]
    exact ih (n + 1)

/-- No blank line ends a rendered program, so its body is all of it (R80). -/
theorem bodyLines_renderText (is : List Instr) : bodyLines (is.map renderText) = is.map renderText := by
  rw [bodyLines, ← List.map_reverse]
  cases h : is.reverse with
  | nil => rw [List.reverse_eq_nil_iff.1 h]; rfl
  | cons i r =>
    rw [List.map_cons, List.dropWhile_cons_of_neg (by simp [isBlankLine_renderText]), ← List.map_cons, ← h,
      List.map_reverse, List.reverse_reverse]

/-! ### The Encoder reads the program back -/

/-- An instruction of even parity has the computed parity bit, so the Encoder emits it (R62, R63). -/
theorem emitted_self {p : Params} (hp : p.Valid) {i : Instr} (hi : parityOk p i = true) :
    emitted p i.mnemonic i.mode (i.arg.getD 0#32) = i := by
  have hidx : p.index i.mnemonic < 16 := (index_lt hp i.mnemonic).trans (by decide)
  have hparity := popcount_packFields ⟨p.index i.mnemonic, hidx⟩ i.mode.bits i.parity
  rw [ofBits_bits] at hparity
  have heven : i.parity = parityFor (p.index i.mnemonic) i.mode := beq_iff_eq.1 (hparity.symm.trans hi)
  rw [emitted, ← heven, ofFields_self]

theorem parseCodeLine_renderText {p : Params} (hp : p.Valid) {i : Instr} (hi : parityOk p i = true)
    (hmode : i.arg = none → i.mode = .direct) : parseCodeLine p (renderText i) = some i := by
  have hparse (a : Word) : parseHex (renderHex a) = some a := hexRenderingParsesBack a
  have hself := emitted_self hp hi
  rw [parseCodeLine, tokens_renderText, operandTokens]
  cases harg : i.arg with
  | none =>
    rw [harg, hmode harg] at hself
    simpa [mnemonicOf_mnemonicName] using hself
  | some a =>
    rw [harg] at hself
    simpa [mnemonicOf_mnemonicName, splitPrefix_operand, hparse] using hself

theorem filterMap_parseCodeLine_renderText {p : Params} (hp : p.Valid) {is : List Instr}
    (h : ∀ i ∈ is, parityOk p i = true ∧ (i.arg = none → i.mode = .direct)) :
    (is.map renderText).filterMap (parseCodeLine p) = is := by
  induction is with
  | nil => rfl
  | cons i r ih =>
    obtain ⟨⟨hi, hmode⟩, hr⟩ := List.forall_mem_cons.1 h
    rw [List.map_cons, List.filterMap_cons_some (parseCodeLine_renderText hp hi hmode), ih hr]

/-- Settles O56: the Validator passes every line, none is a separator, and each line is read back. -/
theorem renderedProgramAssembles : Obligations.RenderedProgramAssembles := by
  intro p kw is hp hkw h
  have hvalid : validate kw (is.map renderText) = [] := by
    rw [validate, bodyLines_renderText, diagnose_renderText hkw]
  have hcode : ∀ l ∈ is.map renderText, (!isCandidate kw l) = true :=
    List.forall_mem_map.2 fun i _ => by rw [isCandidate_renderText hkw]; rfl
  have hcodeOf : codeOf p kw (is.map renderText) = is := by
    rw [codeOf, bodyLines_renderText, List.takeWhile_eq_self_iff.2 hcode, filterMap_parseCodeLine_renderText hp h]
  have hdataOf : dataOf kw (is.map renderText) = [] := by
    rw [dataOf, bodyLines_renderText, List.dropWhile_eq_nil_iff.2 hcode]
    rfl
  rw [assemble_of_valid hvalid, hcodeOf, hdataOf]

end Sys2Proof.Machine
end
